-- ==== Sys2Proof/Word.lean ====
section
/-! DEFINITION. The word, byte and nibble types of rule R12, byte strings, and the two fixed-size
records the registers are made of: an 8-byte block (R6 `BLOCK_BYTES`) and the eight subkeys (R6 `NSUBKEYS`). -/

namespace Sys2Proof

/-- A word is 32 bits, unsigned (R6 `WORD_BITS`, R12). -/
abbrev Word := BitVec 32

/-- A byte is 8 bits (R12). -/
abbrev Byte := BitVec 8

/-- A nibble is 4 bits (R6 `NIBBLE_BITS`, R12). -/
abbrev Nibble := BitVec 4

/-- A byte string, first byte first (R12). -/
abbrev Bytes := List Byte

/-- An 8-byte block `b[0] .. b[7]` (R6 `BLOCK_BYTES`; also the shape of an IV, of `GAMMA` and of `KS`). -/
structure Block where
  b0 : Byte
  b1 : Byte
  b2 : Byte
  b3 : Byte
  b4 : Byte
  b5 : Byte
  b6 : Byte
  b7 : Byte
  deriving DecidableEq, Repr

/-- Eight 32-bit words `K[0] .. K[7]`: a Subkey Set (R6 `NSUBKEYS`, R21). -/
structure Subkeys where
  k0 : Word
  k1 : Word
  k2 : Word
  k3 : Word
  k4 : Word
  k5 : Word
  k6 : Word
  k7 : Word
  deriving DecidableEq, Repr

/-- The shape of the S-box table: row `0..7`, input `0..15`, value `0..15` (R7 `SBOX`, R100).
The table is configuration, never a field of the state; every function that looks it up takes it as
an argument, as R100 asks ("the model takes the table as an argument"). -/
abbrev SBox := Fin 8 → Nibble → Nibble

end Sys2Proof
end

