-- ==== Sys2Proof/Syntax.lean ====
section
/-! DEFINITION. The commands: the abstract command record of R9 and R74 as any frame can spell it, and
`Instr`, one constructor per row of the opcode table (R76). -/

namespace Sys2Proof

/-- The four operations of the command set LCFE-1 (R76). -/
inductive Op where
  | benc
  | bdec
  | senc
  | sdec
  deriving DecidableEq, Repr

/-- The abstract command `(op, flags, key, iv, data)` of R9, as R74 decodes it from any frame, legal or
not. `ivp` and `reserved` are the flags; `ivField` is the `IVLEN` bytes of the IV string, kept also
when `ivp` is clear, because R74 keeps that length for the check of R77 (b). The `iv` of R74 is
`Cmd.iv` in Machine/Operands.lean. -/
structure Cmd where
  op       : Byte
  ivp      : Bool
  reserved : BitVec 7
  key      : Bytes
  ivField  : Bytes
  data     : Bytes
  deriving DecidableEq, Repr

/-- A command that spells one of the four rows of the opcode table (R76, R78): its row, and the
fields the row leaves free. BENC, BDEC and SDEC leave free only the key and the data; SENC leaves
free the `IVP` flag and the IV string too (mask `0x0000FEFF`). Lengths are unbounded, as at the
abstract level of R9. -/
inductive Instr where
  /-- `BENC`: encrypt one block (R127), the source's `BlockTransform.encrypt` (R85). -/
  | benc (key data : Bytes)
  /-- `BDEC`: decrypt one block (R128), the source's `BlockTransform.decrypt` (R85). -/
  | bdec (key data : Bytes)
  /-- `SENC`: encrypt a stream in CFB mode (R148), the source's `encrypt` (R85); `ivp` says whether
  `iv` is an explicit IV (R74). -/
  | senc (ivp : Bool) (key iv data : Bytes)
  /-- `SDEC`: decrypt an envelope in CFB mode (R149), the source's `decrypt` (R85). -/
  | sdec (key data : Bytes)
  deriving DecidableEq, Repr

/-- The row of the opcode table an instruction spells (R76). -/
def Instr.op : Instr → Op
  | .benc _ _ => .benc
  | .bdec _ _ => .bdec
  | .senc _ _ _ _ => .senc
  | .sdec _ _ => .sdec

/-- The key string of an instruction. -/
def Instr.key : Instr → Bytes
  | .benc k _ => k
  | .bdec k _ => k
  | .senc _ k _ _ => k
  | .sdec k _ => k

/-- The IV string an instruction's frame carries: empty for the rows whose `IVLEN` is fixed at 0 (R78). -/
def Instr.ivField : Instr → Bytes
  | .benc _ _ => []
  | .bdec _ _ => []
  | .senc _ _ v _ => v
  | .sdec _ _ => []

/-- The data string of an instruction. -/
def Instr.data : Instr → Bytes
  | .benc _ d => d
  | .bdec _ d => d
  | .senc _ _ _ d => d
  | .sdec _ d => d

/-- The `IVP` flag of an instruction: fixed at 0 in every row but SENC's (R78). -/
def Instr.ivp : Instr → Bool
  | .benc _ _ => false
  | .bdec _ _ => false
  | .senc p _ _ _ => p
  | .sdec _ _ => false

end Sys2Proof
end

