-- ==== Sys2Proof/Config.lean ====
section
/-! DEFINITION. What is fixed for one machine and not state (R8): the constants of R6 and the open
parameters of R7. The open parameters have no body, so no proof can rest on a value of theirs. -/

namespace Sys2Proof.Config

/-- The engine's S-box table (R7 `SBOX`, R31, R100, U1): 128 entries the spec does not give, under no law (log entry
14). -/
opaque sbox : SBox

/-- One less than the number of engine instances, so that `numEngines` is at least 1 (R7, R178). -/
opaque extraEngines : Nat

/-- `NUM_ENGINES`, an open parameter, a natural number at least 1 (R7, R178, D17). -/
def numEngines : Nat := extraEngines + 1

/-- `BLOCK_BYTES` (R6). -/
def blockBytes : Nat := 8

/-- `KEY_BYTES` (R6). -/
def keyBytes : Nat := 32

/-- `IV_BYTES` (R6). -/
def ivBytes : Nat := 8

/-- `NROUNDS` (R6). -/
def nRounds : Nat := 32

/-- `ROT`: the round function rotates left by 11 (R6, R105). -/
def rot : Nat := 11

/-- The largest length the 32-bit `DLEN` and `RLEN` fields can carry is one less than this (R7, R72, R79). -/
def lengthLimit : Nat := 4294967296

end Sys2Proof.Config
end

