-- ==== Sys2Proof/WellFormed.lean ====
section
/-! DEFINITION. When an instruction can be written as a binary command frame (R71 to R73, R84), and when
it meets the opcode table's `constraints` column (R77 (b), R77 (d)). -/

namespace Sys2Proof

/-- `KLEN` is 8 bits (R71), so a frame carries a key of at most 255 bytes. -/
def Instr.keyFits (i : Instr) : Bool := i.key.length < 256

/-- `IVLEN` is 8 bits (R71), so a frame carries an IV string of at most 255 bytes. -/
def Instr.ivFits (i : Instr) : Bool := i.ivField.length < 256

/-- `DLEN` is 32 bits (R72), so a frame carries at most `2^32 - 1` bytes of data. -/
def Instr.dataFits (i : Instr) : Bool := i.data.length < Config.lengthLimit

/-- An instruction is well formed when a frame can carry it (R84: a text form that the encoder cannot
express in a frame "is valid only at the abstract level"). A wrong key, IV or block length is no
reason to be ill formed: R73 lets each be presented and earn its fault. -/
def Instr.wellFormed (i : Instr) : Bool := i.keyFits && i.ivFits && i.dataFits

/-- The table's `constraints`: a block command carries `DLEN = 8` (R77 (d)), and a SENC without the
`IVP` flag carries no IV bytes (R77 (b)). A command that breaks one is answered `BadFrame`. -/
def Instr.conforming : Instr → Bool
  | .benc _ d => d.length == Config.blockBytes
  | .bdec _ d => d.length == Config.blockBytes
  | .senc p _ v _ => p || v.isEmpty
  | .sdec _ _ => true

end Sys2Proof
end

