-- ==== Sys2Proof/Decode.lean ====
section
/-! DEFINITION. Byte order (R12, R52, R53), the command frame (R70 to R75, R83), the opcode table (R76,
R78), the decoder, total on any bytes and rejecting by name (R82), and the encoder. -/

namespace Sys2Proof

/-! ### Byte order -/

/-- `le32` of a 4-byte string: the byte at the lower offset is the less significant (R12, R52). -/
def le32 (b0 b1 b2 b3 : Byte) : Word := b3 ++ b2 ++ b1 ++ b0

/-- Byte `j` of a word, `w[8j+7 : 8j]` (R12). -/
def byteOf (w : Word) (j : Nat) : Byte := w.extractLsb' (8 * j) 8

/-- `bytes_le32`, the inverse of `le32` (R12). -/
def bytesLe32 (w : Word) : Bytes := [byteOf w 0, byteOf w 1, byteOf w 2, byteOf w 3]

/-! ### The command header (R71, R72) -/

/-- The two header words of a command frame: frame bytes 0 to 3 and 4 to 7, each read as `le32`. -/
structure Header where
  w0 : Word
  w1 : Word
  deriving DecidableEq, Repr

/-- `OP`, word 0 bits `[7:0]` (R71). -/
def Header.op (h : Header) : Byte := h.w0.extractLsb' 0 8

/-- `IVP`, word 0 bit `[8]` (R71). -/
def Header.ivp (h : Header) : Bool := h.w0.getLsbD 8

/-- The reserved flag bits, word 0 bits `[15:9]` (R71). -/
def Header.reserved (h : Header) : BitVec 7 := h.w0.extractLsb' 9 7

/-- `KLEN`, word 0 bits `[23:16]`, unsigned (R71, R74). -/
def Header.klen (h : Header) : Nat := (h.w0.extractLsb' 16 8).toNat

/-- `IVLEN`, word 0 bits `[31:24]`, unsigned (R71, R74). -/
def Header.ivlen (h : Header) : Nat := (h.w0.extractLsb' 24 8).toNat

/-- `DLEN`, word 1, unsigned (R72, R74). -/
def Header.dlen (h : Header) : Nat := h.w1.toNat

/-- The length of a command frame, told by its header alone, whatever the opcode and `IVP` (R83). -/
def Header.frameLength (h : Header) : Nat := 8 + h.klen + h.ivlen + h.dlen

/-- The first 8 bytes of a frame as its header, and the bytes after them. -/
def readHeader : Bytes → Option (Header × Bytes)
  | b0 :: b1 :: b2 :: b3 :: b4 :: b5 :: b6 :: b7 :: body =>
      some (⟨le32 b0 b1 b2 b3, le32 b4 b5 b6 b7⟩, body)
  | _ => none

/-- The abstract command of a frame with header `h` and bytes `body` after it (R73, R74). -/
def commandOf (h : Header) (body : Bytes) : Cmd where
  op       := h.op
  ivp      := h.ivp
  reserved := h.reserved
  key      := body.take h.klen
  ivField  := (body.drop h.klen).take h.ivlen
  data     := (body.drop (h.klen + h.ivlen)).take h.dlen

/-- The first whole frame of the bytes presented: its header, its abstract command and the bytes after
it; none while the frame is incomplete (R75). Total on any bytes (R82). -/
def splitFrame (bs : Bytes) : Option (Header × Cmd × Bytes) :=
  match readHeader bs with
  | none => none
  | some (h, body) =>
      if h.klen + h.ivlen + h.dlen ≤ body.length then
        some (h, commandOf h body, body.drop (h.klen + h.ivlen + h.dlen))
      else none

/-! ### The opcode table (R76, R78) -/

/-- The opcode byte of each row (R76). -/
def Op.code : Op → Byte
  | .benc => 0x01
  | .bdec => 0x02
  | .senc => 0x03
  | .sdec => 0x04

/-- The row an opcode byte names, if it is legal (R76, R82). -/
def opOfCode (b : Byte) : Option Op :=
  if b = 0x01 then some .benc
  else if b = 0x02 then some .bdec
  else if b = 0x03 then some .senc
  else if b = 0x04 then some .sdec
  else none

/-- One row of the match and mask table over word 0 (R78). -/
structure OpRow where
  op      : Op
  mask    : Word
  pattern : Word
  deriving DecidableEq, Repr

/-- The match and mask table of R78. -/
def opcodeRows : List OpRow :=
  [ ⟨.benc, 0xFF00FFFF, 0x00000001⟩,
    ⟨.bdec, 0xFF00FFFF, 0x00000002⟩,
    ⟨.senc, 0x0000FEFF, 0x00000003⟩,
    ⟨.sdec, 0xFF00FFFF, 0x00000004⟩ ]

/-- Word 0 matches a row when its masked bits are the row's pattern (R78). -/
def OpRow.hits (r : OpRow) (w0 : Word) : Bool := w0 &&& r.mask == r.pattern

/-- The row word 0 matches; none is `BadFrame` (R78). -/
def rowOf (w0 : Word) : Option Op := (opcodeRows.find? (fun r => r.hits w0)).map OpRow.op

/-! ### Decoding -/

/-- Why bytes are no instruction, by name. All but `incomplete` are answered `BadFrame` (R77, R82). -/
inductive Reject where
  /-- The frame is not whole yet (R75). -/
  | incomplete
  /-- `OP` is `0x00` or `0x05` to `0xFF` (R82). -/
  | illegalOpcode (op : Byte)
  /-- One of word 0 bits `[15:9]` is set (R77 (a)). -/
  | reservedFlag
  /-- BENC, BDEC or SDEC with `IVP = 1`, or with `IVLEN` other than 0 (R77 (b), R77 (c)). -/
  | ivNotTaken
  deriving DecidableEq, Repr

/-- The reason a word 0 that matches no row is rejected. -/
def rejectReason (h : Header) : Reject :=
  match opOfCode h.op with
  | none => .illegalOpcode h.op
  | some _ => if h.reserved = 0 then .ivNotTaken else .reservedFlag

/-- The instruction of a row whose free fields a command holds. The row is told by word 0 alone, as R78 says; a block
of the wrong length and a SENC's stray IV stay that row's instruction, and earn `BadFrame` (DEDUCED, log entry 13). -/
def instrOf (op : Op) (c : Cmd) : Instr :=
  match op with
  | .benc => .benc c.key c.data
  | .bdec => .bdec c.key c.data
  | .senc => .senc c.ivp c.key c.ivField c.data
  | .sdec => .sdec c.key c.data

/-- The decoder: the first frame of the bytes as an instruction and the bytes after it, or the reason
it is none. -/
def decode (bs : Bytes) : Except Reject (Instr × Bytes) :=
  match splitFrame bs with
  | none => .error .incomplete
  | some (h, c, rest) =>
      match rowOf h.w0 with
      | some op => .ok (instrOf op c, rest)
      | none => .error (rejectReason h)

/-! ### Encoding (written from R71 to R73 and R76) -/

/-- The abstract command an instruction stands for: its row's opcode, the reserved bits 0 (R84). -/
def Instr.toCmd (i : Instr) : Cmd where
  op       := i.op.code
  ivp      := i.ivp
  reserved := 0
  key      := i.key
  ivField  := i.ivField
  data     := i.data

/-- Frame byte 1: `IVP` in bit 0, the reserved bits above it (R71). -/
def Cmd.flagsByte (c : Cmd) : Byte := c.reserved ++ BitVec.ofBool c.ivp

/-- The command frame of a command (R71, R72, R73): the header, then the key, IV and data strings. The
length fields are the lengths of the strings, so the frame stands for the command when they fit. -/
def Cmd.encode (c : Cmd) : Bytes :=
  [c.op, c.flagsByte, BitVec.ofNat 8 c.key.length, BitVec.ofNat 8 c.ivField.length]
    ++ bytesLe32 (BitVec.ofNat 32 c.data.length) ++ c.key ++ c.ivField ++ c.data

/-- The frame of an instruction (R84: "The encoder fills `KLEN`, `IVLEN`, `DLEN` from the lengths of the
strings, sets the reserved bits to 0 and sets `IVP` as said"). -/
def encode (i : Instr) : Bytes := i.toCmd.encode

/-! ### The opcode table's numbering of bits -/

/-- Byte `j` of an instruction whose bits are `v`, numbered from the least significant bit of word 0;
words are stored little-endian (R53, R71). -/
def tableByte (v j : Nat) : Byte := BitVec.ofNat 8 (v >>> (8 * j))

/-- The whole frame whose first `nbits` bits are `w`, all later bits 0. Its length is what its own
header says (R83). -/
def frameOfTableWord (nbits w : Nat) : Bytes :=
  let v := w % 2 ^ nbits
  let h : Header := ⟨BitVec.ofNat 32 v, BitVec.ofNat 32 (v / 2 ^ 32)⟩
  (List.range h.frameLength).map (tableByte v)

/-- The instruction the decoder reads from a table word. -/
def decodeTableWord (nbits w : Nat) : Option Instr :=
  match decode (frameOfTableWord nbits w) with
  | .ok (i, _) => some i
  | .error _ => none

end Sys2Proof
end

