-- ==== Sys2Proof/Machine/State.lean ====
section
/-! DEFINITION. The state of one engine instance: every element of R20's table, and the engine's side of
the host, entropy and reset interfaces (R8, R75, R79, R32, R190). All of it is plain data. -/

namespace Sys2Proof.Machine

/-- The ten phases of the sequencer (R26). -/
inductive Phase where
  | idle
  | check
  | kexp
  | ivsel
  | next
  | load
  | round
  | pack
  | mix
  | done
  deriving DecidableEq, Repr

/-- `DIR`, the key order of the block transform: R20's 0 is `encrypt`, 1 is `decrypt`. -/
inductive Dir where
  | encrypt
  | decrypt
  deriving DecidableEq, Repr

/-- The three faults a command can earn (R160). -/
inductive CmdFault where
  | badFrame
  | invalidKeyLength
  | invalidIVLength
  deriving DecidableEq, Repr

/-- What `STATUS` can say (R80): `OK`, or the fault the command earned. -/
inductive Status where
  | ok
  | fault (f : CmdFault)
  deriving DecidableEq, Repr

/-- A response `(status, out)` (R9). -/
structure Response where
  status : Status
  out    : Bytes
  deriving DecidableEq, Repr

/-- The state of one engine instance. The first eleven fields are R20's table; the last four are the
engine's interfaces. -/
structure State where
  /-- `K[0] .. K[7]`, the subkeys of the current command (R20, R21). -/
  k : Subkeys
  /-- `N1`, first half of the running pair (R20, R22). -/
  n1 : Word
  /-- `N2`, second half of the running pair (R20, R22). -/
  n2 : Word
  /-- `GAMMA`, the chaining register (R20, R23). -/
  gamma : Block
  /-- `KS`, the packed output of the last block transform (R20, R24). -/
  ks : Block
  /-- `RND`, rounds done on the current block: values 0 to 32 (R20, R25). -/
  rnd : Fin 33
  /-- `POS`, the offset in the stream of the next byte to process (R20, R28). -/
  pos : Nat
  /-- `PHASE`, where the sequencer is (R20, R26). -/
  phase : Phase
  /-- `CMD`, the command being executed, latched whole (R20, R29). -/
  cmd : Cmd
  /-- `DIR`, the key order (R20, R29). -/
  dir : Dir
  /-- `RESP`, the response payload assembled so far (R20, R29). -/
  resp : Bytes
  /-- The bytes the host has presented and the engine has not accepted yet, oldest first (R73, R75, R83). -/
  rx : Bytes
  /-- The responses delivered and not yet taken by the host, oldest first (R11, R59, R79). -/
  tx : List Response
  /-- The answers the entropy source has ready, the next one first: the model's own field, each entry
  the free 8-byte input of one draw (R32); empty while the source does not answer (R177). -/
  draws : List Block
  /-- The reset input of the instance is asserted (R174, R190; DESIGN CHOICE, log entry 6). -/
  resetIn : Bool
  deriving DecidableEq, Repr

/-- What stops the machine where the spec has no rule. Raised only by a sequencer step in a state no
run reaches (R38, R167); `Sys2Proof.Machine.SeqInv` rules all of them out. Each is safe: the model stops
(DESIGN CHOICE, log entry 16). -/
inductive Fault where
  /-- A step after CHECK holds a command whose opcode names no operation, or a streaming step holds a
  block command. Raised by KEXP, IVSEL, NEXT, LOAD, PACK and MIX; safe. -/
  | noOperation
  /-- A `MemRead` outside a byte space (R50), or of an absent IV. Raised by KEXP, IVSEL, LOAD and MIX;
  safe. -/
  | readOutside
  /-- A ROUND with `RND = 32`: R120 gives no subkey index for it. Raised by ROUND; safe. -/
  | roundCount
  deriving DecidableEq, Repr

/-- Why the machine gives a command no meaning. -/
inductive Refusal where
  /-- The instruction has no meaning yet; raised by `exec`'s arms alone; safe. No arm raises it. -/
  | notModelled (mnemonic : String)
  /-- A valid SENC frame whose response payload does not fit the 32-bit `RLEN` (R81, U6: "a model of the
  binary frame should refuse such a command by name"). Raised where a frame is accepted; safe. -/
  | responseTooLong
  deriving DecidableEq, Repr

/-- The state right after reset (R190): `PHASE = IDLE` and no response pending. R190 leaves every other
register unspecified; DESIGN CHOICE (log entry 1): zero or empty, which no result depends on (R38). Nothing has been
presented and no draw has been answered (log entries 2 and 3). -/
def State.reset : State where
  k       := ⟨0, 0, 0, 0, 0, 0, 0, 0⟩
  n1      := 0
  n2      := 0
  gamma   := ⟨0, 0, 0, 0, 0, 0, 0, 0⟩
  ks      := ⟨0, 0, 0, 0, 0, 0, 0, 0⟩
  rnd     := 0
  pos     := 0
  phase   := .idle
  cmd     := ⟨0, false, 0, [], [], []⟩
  dir     := .encrypt
  resp    := []
  rx      := []
  tx      := []
  draws   := []
  resetIn := false

end Sys2Proof.Machine
end

