-- ==== Sys2Proof/Machine/Operands.lean ====
section
/-! DEFINITION. The operands of a command: its operation and IV (R74), its byte spaces (R50), the stream
and its blocks (R28, R54, R140), the 8-byte views of R52 and R63, and the tests of CHECK (R162). -/

namespace Sys2Proof

/-- The operation of a command, if its opcode is legal (R76, R82). -/
def Cmd.operation (c : Cmd) : Option Op := opOfCode c.op

/-- The `iv` of R74: the IV string if `IVP = 1`, absent if `IVP = 0`. Present with length 0 is not absent. -/
def Cmd.iv (c : Cmd) : Option Bytes := if c.ivp then some c.ivField else none

/-- BENC and BDEC are block commands; SENC and SDEC are streaming commands (R26). -/
def Op.isBlock : Op → Bool
  | .benc => true
  | .bdec => true
  | .senc => false
  | .sdec => false

/-- `base`, the offset of the stream inside `DATA`: 0 for SENC, 8 for SDEC, after the IV (R28, R146). -/
def Op.streamBase : Op → Nat
  | .sdec => 8
  | _ => 0

namespace Machine

/-! ### 8-byte views (R52, R63) -/

/-- The bytes of a block, first byte first. -/
def blockBytes (b : Block) : Bytes := [b.b0, b.b1, b.b2, b.b3, b.b4, b.b5, b.b6, b.b7]

/-- The first 8 bytes of a string as a block; a shorter string is padded with zero bytes at its end,
`B || 0^(8 - len B)` (R143, R146, D11). -/
def blockOf (bs : Bytes) : Block :=
  ⟨bs.getD 0 0, bs.getD 1 0, bs.getD 2 0, bs.getD 3 0, bs.getD 4 0, bs.getD 5 0, bs.getD 6 0, bs.getD 7 0⟩

/-- `le32(b[0..4))`: the word loaded into `N1` (R52 (2), R63). -/
def firstHalf (b : Block) : Word := le32 b.b0 b.b1 b.b2 b.b3

/-- `le32(b[4..8))`: the word loaded into `N2` (R52 (2), R63). -/
def secondHalf (b : Block) : Word := le32 b.b4 b.b5 b.b6 b.b7

/-- `bytes_le32(u) || bytes_le32(v)` (R52 (3), R63). -/
def packHalves (u v : Word) : Block :=
  ⟨byteOf u 0, byteOf u 1, byteOf u 2, byteOf u 3, byteOf v 0, byteOf v 1, byteOf v 2, byteOf v 3⟩

/-- `le32(B[off .. off+4))`, for a string that long (R52 (1)). -/
def wordAt (bs : Bytes) (off : Nat) : Word :=
  le32 (bs.getD off 0) (bs.getD (off + 1) 0) (bs.getD (off + 2) 0) (bs.getD (off + 3) 0)

/-- Eight consecutive little-endian words of a 32-byte string, in order (R52 (1), R102, R104). -/
def subkeysOf (bs : Bytes) : Subkeys :=
  ⟨wordAt bs 0, wordAt bs 4, wordAt bs 8, wordAt bs 12, wordAt bs 16, wordAt bs 20, wordAt bs 24, wordAt bs 28⟩

/-- The subkey register an index selects (R21). -/
def subkeyAt (K : Subkeys) (j : Fin 8) : Word :=
  match j with
  | 0 => K.k0
  | 1 => K.k1
  | 2 => K.k2
  | 3 => K.k3
  | 4 => K.k4
  | 5 => K.k5
  | 6 => K.k6
  | 7 => K.k7

/-! ### Byte spaces (R50) -/

/-- The byte spaces of a command that the engine reads. `SBOX` is read through the table itself (R100), and
`RESP` is the register of that name. -/
inductive Space where
  | key
  | iv
  | data
  deriving DecidableEq, Repr

/-- The bytes of a space of a command; the IV space exists only if `IVP` is set (R50). -/
def spaceBytes (c : Cmd) : Space → Option Bytes
  | .key => some c.key
  | .iv => c.iv
  | .data => some c.data

/-- `MemRead(space, off, n)`: the `n` bytes at offset `off` (R12). A read that is not wholly inside the
space has no meaning in the spec, and gives none. It has no side effect (R57). -/
def memRead (c : Cmd) (sp : Space) (off n : Nat) : Option Bytes :=
  match spaceBytes c sp with
  | none => none
  | some bs => if off + n ≤ bs.length then some ((bs.drop off).take n) else none

/-! ### The stream and its blocks -/

/-- The stream of a command: `data` for SENC, `data[8..)` for SDEC (R28). -/
def streamOf (op : Op) (c : Cmd) : Bytes := c.data.drop op.streamBase

/-- How many blocks a stream of `m` bytes has: `ceil(m / 8)` (R140). -/
def blockCount (m : Nat) : Nat := (m + 7) / 8

/-- The blocks of a stream: block `i`, counting from 0 here, is `s[8i .. min(8(i+1), m))` (R54, R140). -/
def streamBlocks (s : Bytes) : List Bytes :=
  (List.range (blockCount s.length)).map (fun i => (s.drop (8 * i)).take 8)

/-- Bytewise exclusive or; a longer second string is cut to the length of the first, as `KS[0..L)` is
(R12, R106 (5), R146). -/
def xorBytes (a b : Bytes) : Bytes := List.zipWith (· ^^^ ·) a b

/-! ### The tests of CHECK (R162, R165) -/

/-- The fault a command earns, the first in R162's order, or none for a valid command. -/
def checkCmd (c : Cmd) : Option CmdFault :=
  match c.operation with
  | none => some .badFrame
  | some op =>
      if c.reserved ≠ 0 then some .badFrame
      else if c.ivp = false ∧ c.ivField.length ≠ 0 then some .badFrame
      else if c.ivp = true ∧ op ≠ .senc then some .badFrame
      else if op.isBlock = true ∧ c.data.length ≠ 8 then some .badFrame
      else if c.key.length ≠ 32 then some .invalidKeyLength
      else if op = .senc ∧ c.ivp = true ∧ c.ivField.length ≠ 8 then some .invalidIVLength
      else if op = .sdec ∧ c.data.length < 8 then some .invalidIVLength
      else none

/-- A valid SENC whose response payload, `8 + DLEN` bytes, does not fit `RLEN` (R81, U6). -/
def answerTooLong (c : Cmd) : Bool :=
  c.operation == some .senc && (checkCmd c).isNone && decide (Config.lengthLimit ≤ 8 + c.data.length)

end Machine

end Sys2Proof
end

