-- ==== Sys2Proof/Machine/Flags.lean ====
section
/-! DEFINITION. The engine has no status flags and no condition codes (R30, R106). What tells an outcome is
the `STATUS` byte of a response frame (R79, R80), and the one-bit latch `DIR` (R29, R162). -/

namespace Sys2Proof.Machine

/-- `DIR` as CHECK sets it: the decrypt order for BDEC alone (R29, R150, R162). -/
def dirOf (op : Option Op) : Dir := if op = some .bdec then .decrypt else .encrypt

/-- The code of a fault (R80, R160). -/
def CmdFault.code : CmdFault → Byte
  | .invalidKeyLength => 0x01
  | .invalidIVLength => 0x02
  | .badFrame => 0x03

/-- The `STATUS` byte (R80). -/
def Status.code : Status → Byte
  | .ok => 0x00
  | .fault f => f.code

/-- The status a `STATUS` byte names; `0x04` to `0xFF` are reserved and never produced (R80). -/
def statusOfCode (b : Byte) : Option Status :=
  if b = 0x00 then some .ok
  else if b = 0x01 then some (.fault .invalidKeyLength)
  else if b = 0x02 then some (.fault .invalidIVLength)
  else if b = 0x03 then some (.fault .badFrame)
  else none

/-- The response frame of a response (R79), none where the payload does not fit `RLEN` (R81, U6). -/
def Response.encode (r : Response) : Option Bytes :=
  if r.out.length < Config.lengthLimit then
    some ([r.status.code, 0, 0, 0] ++ bytesLe32 (BitVec.ofNat 32 r.out.length) ++ r.out)
  else none

/-- A response frame read back by the host, and the bytes after it (R79, R83). A reserved `STATUS` or a set bit above
it is no response of this engine (U8; DEDUCED, log entry 20). -/
def readResponse (bs : Bytes) : Option (Response × Bytes) :=
  match readHeader bs with
  | none => none
  | some (h, body) =>
      match statusOfCode h.op with
      | none => none
      | some st =>
          if h.w0.extractLsb' 8 24 = 0 ∧ h.dlen ≤ body.length then
            some (⟨st, body.take h.dlen⟩, body.drop h.dlen)
          else none

end Sys2Proof.Machine
end

