-- ==== Sys2Proof/Machine/Ops.lean ====
section
/-! DEFINITION. The operations over the state that the steps and the agents share: accepting a command,
delivering a response, raising a fault, reset, and the acts of the host and the entropy source. -/

namespace Sys2Proof.Machine

/-- The outcome of a step of the machine. -/
abbrev Result := Host.Outcome State Fault Refusal

/-- The effect of ACCEPT: `CMD` latches the command whole, `PHASE <- CHECK`, nothing else (R34). -/
def accept (c : Cmd) (s : State) : State := { s with cmd := c, phase := .check }

/-- One response is delivered to the host, whole, after those delivered before (R59, R62, R79). -/
def deliver (r : Response) (s : State) : State := { s with tx := s.tx ++ [r] }

/-- Taking an exception: `raise X` (R12, R170). The response `(code(X), empty)` is delivered and
`PHASE <- IDLE`; no other register is written, nothing is saved, no handler runs. R12's "`RESP` is
discarded" is read as R170 has it: `RESP` is not written (DEDUCED, log entry 18). -/
def raiseFault (f : CmdFault) (s : State) : State :=
  { deliver ⟨.fault f, []⟩ s with phase := .idle }

/-- Return from an exception (R171): "There is no return instruction and nothing to restore", so the
engine, idle again after `raiseFault`, returns by doing nothing. -/
def returnFromFault (s : State) : State := s

/-- The effect of DONE: the response `(OK, RESP)` is delivered and `PHASE <- IDLE` (R35). The registers keep what the
steps left in them (R37, R200; DESIGN CHOICE, log entry 8). -/
def finish (s : State) : State := { deliver ⟨.ok, s.resp⟩ s with phase := .idle }

/-- `RESP <- RESP || v` (R12 `MemWrite`, R29). -/
def appendResp (v : Bytes) (s : State) : State := { s with resp := s.resp ++ v }

/-- Reset (R190, R191): the registers take the values of `State.reset` and no response is pending; a
command in progress is abandoned without one. What the transport has not handed over yet and what
the entropy source has ready are not the engine's, and stay (DESIGN CHOICE, log entry 5). -/
def applyReset (s : State) : State := { State.reset with rx := s.rx, draws := s.draws }

/-! ### The acts of the other agents (R8) -/

/-- The host presents bytes, after those presented before (R34, R73, R75). -/
def hostPresent (bs : Bytes) (s : State) : State := { s with rx := s.rx ++ bs }

/-- The host takes the oldest response delivered, if there is one (R8, R11). -/
def hostTake (s : State) : Option (Response × State) :=
  match s.tx with
  | [] => none
  | r :: rs => some (r, { s with tx := rs })

/-- The entropy source readies one more answer, any 8 bytes (R32, R177). -/
def entropyAnswer (b : Block) (s : State) : State := { s with draws := s.draws ++ [b] }

/-- The reset input is asserted (R190). -/
def assertReset (s : State) : State := { s with resetIn := true }

/-- A run has ended, as far as one engine goes: it is idle and every response has been taken (R11). -/
def runEnded (s : State) : Bool := s.phase == .idle && s.tx.isEmpty

end Sys2Proof.Machine
end

