-- ==== Sys2Proof/Machine/Cipher.lean ====
section
/-! DEFINITION. The leaf functions of the engine, for every S-box table: the substitution network (R101), the
key schedule (R102), the round function (R105), and the 32-round block transform (R120 to R123). -/

namespace Sys2Proof.Machine

/-- Nibble `i` of a word, `w[4i+3 : 4i]` (R12). -/
def nibble (w : Word) (i : Nat) : Nibble := w.extractLsb' (4 * i) 4

/-- `Sub(t)`: nibble `i` of the result is row `i`'s substitute of nibble `i` of `t` (R101). -/
def sub (S : SBox) (t : Word) : Word :=
  S 7 (nibble t 7) ++ S 6 (nibble t 6) ++ S 5 (nibble t 5) ++ S 4 (nibble t 4)
    ++ S 3 (nibble t 3) ++ S 2 (nibble t 2) ++ S 1 (nibble t 1) ++ S 0 (nibble t 0)

/-- `rotl32(w, r)` (R12). -/
def rotl32 (w : Word) (r : Nat) : Word := (w <<< r) ||| (w >>> (32 - r))

/-- The round function `F(a, k)`: add modulo `2^32`, substitute, rotate left by 11 (R105). -/
def roundF (S : SBox) (a k : Word) : Word := rotl32 (sub S (a + k)) Config.rot

/-- `KeySchedule(key)`: eight little-endian words, or `InvalidKeyLength` (R102, R161). -/
def keySchedule (key : Bytes) : Except CmdFault Subkeys :=
  if key.length = Config.keyBytes then .ok (subkeysOf key) else .error .invalidKeyLength

/-- `EncIdx(r)`, the subkey of round `r` when encrypting, for `r = 0..31` (R120). -/
def encIdx (r : Nat) : Fin 8 := if h : r < 24 then ⟨r % 8, by omega⟩ else ⟨31 - r, by omega⟩

/-- `DecIdx(r)`, the subkey of round `r` when decrypting, for `r = 0..31` (R120). -/
def decIdx (r : Nat) : Fin 8 := if h : r < 8 then ⟨r, h⟩ else ⟨7 - r % 8, by omega⟩

/-- The key order `DIR` selects (R125). -/
def idxOf : Dir → Nat → Fin 8
  | .encrypt => encIdx
  | .decrypt => decIdx

/-- One round with subkey `k`: `(n1, n2)` becomes `(n2, n1 ^ F(n2, k))`, from the old pair (R121). -/
def roundPair (S : SBox) (k : Word) (p : Word × Word) : Word × Word :=
  (p.2, p.1 ^^^ roundF S p.2 k)

/-- The running pair after rounds `0 .. n-1` (R122). -/
def rounds (S : SBox) (K : Subkeys) (idx : Nat → Fin 8) (p : Word × Word) : Nat → Word × Word
  | 0 => p
  | n + 1 => roundPair S (subkeyAt K (idx n)) (rounds S K idx p n)

/-- `BlockCore(Kset, idx, b)`: split, 32 rounds, then the final `n2` first and the final `n1` second (R122,
conflict C1). -/
def blockCore (S : SBox) (K : Subkeys) (idx : Nat → Fin 8) (b : Block) : Block :=
  let p := rounds S K idx (firstHalf b, secondHalf b) Config.nRounds
  packHalves p.2 p.1

/-- `BlockEnc(key, b)` (R123). -/
def blockEnc (S : SBox) (key : Bytes) (b : Block) : Except CmdFault Block :=
  (keySchedule key).map (fun K => blockCore S K encIdx b)

/-- `BlockDec(key, b)` (R123). -/
def blockDec (S : SBox) (key : Bytes) (b : Block) : Except CmdFault Block :=
  (keySchedule key).map (fun K => blockCore S K decIdx b)

end Sys2Proof.Machine
end

