-- ==== Sys2Proof/Machine/Stream.lean ====
section
/-! DEFINITION. The cipher feedback mode as functions of a whole byte string (R141 to R143), for every S-box
table. Both directions run the block transform in the encrypt order (R150). -/

namespace Sys2Proof.Machine

/-- The masked blocks `C_1 || ... || C_n` of plaintext blocks, from chaining value `gamma`: the
ciphertext block just produced is the next chaining value (R141, R143). -/
def cfbEncFrom (S : SBox) (K : Subkeys) : Block → List Bytes → Bytes
  | _, [] => []
  | gamma, p :: ps =>
      let c := xorBytes p (blockBytes (blockCore S K encIdx gamma))
      c ++ cfbEncFrom S K (blockOf c) ps

/-- The plaintext blocks `P_1 || ... || P_n` of ciphertext blocks: the ciphertext block just consumed is
the next chaining value (R142, R143). -/
def cfbDecFrom (S : SBox) (K : Subkeys) : Block → List Bytes → Bytes
  | _, [] => []
  | gamma, c :: cs =>
      xorBytes c (blockBytes (blockCore S K encIdx gamma)) ++ cfbDecFrom S K (blockOf c) cs

/-- `CfbEnc(key, iv, p)`: the envelope `IV || C_1 || ... || C_n` (R141). -/
def cfbEnc (S : SBox) (key : Bytes) (iv : Block) (p : Bytes) : Except CmdFault Bytes :=
  (keySchedule key).map (fun K => blockBytes iv ++ cfbEncFrom S K iv (streamBlocks p))

/-- `CfbDec(key, env)`: the plaintext of an envelope of at least 8 bytes (R142). A shorter one is
`InvalidIVLength` (R149, R163). -/
def cfbDec (S : SBox) (key env : Bytes) : Except CmdFault Bytes :=
  (keySchedule key).bind (fun K =>
    if env.length < 8 then .error .invalidIVLength
    else .ok (cfbDecFrom S K (blockOf env) (streamBlocks (env.drop 8))))

end Sys2Proof.Machine
end

