-- ==== Sys2Proof/Machine/Sequencer.lean ====
section
/-! DEFINITION. The ten steps of the sequencer (R33), one definition each, for every S-box table, and the run of
one command through them. -/

namespace Sys2Proof.Machine

/-- ACCEPT (R34, R74, R75). An incomplete frame gives the engine no step: the model's step changes
nothing (DESIGN CHOICE, log entry 10). A valid SENC that `RLEN` cannot answer is refused by name (U6; log
entry 11). -/
def acceptStep (s : State) : Result :=
  match splitFrame s.rx with
  | none => .next s
  | some (_, c, rest) =>
      if answerTooLong c then .refused .responseTooLong
      else .next (accept c { s with rx := rest })

/-- CHECK (R162): every test that can refuse the command, before anything else is done (R167). -/
def checkStep (s : State) : Result :=
  match checkCmd s.cmd with
  | some f => .next (raiseFault f s)
  | none => .next { s with dir := dirOf s.cmd.operation, resp := [], phase := .kexp }

/-- KEXP (R104): all eight subkeys from the key of this command. -/
def kexpStep (s : State) : Result :=
  match s.cmd.operation with
  | none => .fault .noOperation
  | some op =>
      match memRead s.cmd .key 0 32 with
      | none => .fault .readOutside
      | some b => .next { s with k := subkeysOf b, phase := if op.isBlock then .load else .ivsel }

/-- What IVSEL does once the IV of a SENC is chosen: it is emitted and chained from (R144). -/
def startEncrypt (iv : Block) (s : State) : State :=
  { appendResp (blockBytes iv) s with gamma := iv, pos := 0, phase := .next }

/-- What IVSEL does in SDEC: the IV is chained from and not copied to the response (R144). -/
def startDecrypt (iv : Block) (s : State) : State :=
  { s with gamma := iv, pos := 0, phase := .next }

/-- IVSEL (R144). A SENC without IV takes the next answer of the entropy source; while there is none the
step is not enabled and the engine stays in IVSEL (R177, U4; DESIGN CHOICE, log entry 10). -/
def ivselStep (s : State) : Result :=
  match s.cmd.operation with
  | some .senc =>
      if s.cmd.ivp then
        match memRead s.cmd .iv 0 8 with
        | none => .fault .readOutside
        | some b => .next (startEncrypt (blockOf b) s)
      else
        match s.draws with
        | [] => .next s
        | d :: ds => .next (startEncrypt d { s with draws := ds })
  | some .sdec =>
      match memRead s.cmd .data 0 8 with
      | none => .fault .readOutside
      | some b => .next (startDecrypt (blockOf b) s)
  | some .benc => .fault .noOperation
  | some .bdec => .fault .noOperation
  | none => .fault .noOperation

/-- NEXT (R145): it writes nothing but `PHASE`. -/
def nextStep (s : State) : Result :=
  match s.cmd.operation with
  | none => .fault .noOperation
  | some op =>
      if op.isBlock then .fault .noOperation
      else .next { s with phase := if s.pos = (streamOf op s.cmd).length then .done else .load }

/-- The running pair and the round count as LOAD sets them from the 8-byte input (R124). -/
def loadPair (src : Block) (s : State) : State :=
  { s with n1 := firstHalf src, n2 := secondHalf src, rnd := 0, phase := .round }

/-- LOAD (R124): from `DATA` for a block command, from `GAMMA` for a streaming command. -/
def loadStep (s : State) : Result :=
  match s.cmd.operation with
  | none => .fault .noOperation
  | some op =>
      if op.isBlock then
        match memRead s.cmd .data 0 8 with
        | none => .fault .readOutside
        | some b => .next (loadPair (blockOf b) s)
      else .next (loadPair s.gamma s)

/-- ROUND (R125): round `RND` with the subkey the key order selects. -/
def roundStep (S : SBox) (s : State) : Result :=
  if h : s.rnd.val < 32 then
    let p := roundPair S (subkeyAt s.k (idxOf s.dir s.rnd.val)) (s.n1, s.n2)
    .next { s with n1 := p.1, n2 := p.2, rnd := ⟨s.rnd.val + 1, by omega⟩,
                   phase := if s.rnd.val + 1 = 32 then .pack else .round }
  else .fault .roundCount

/-- PACK (R126): the final `N2` first, the final `N1` second. -/
def packStep (s : State) : Result :=
  match s.cmd.operation with
  | none => .fault .noOperation
  | some op =>
      let b := packHalves s.n2 s.n1
      if op.isBlock then .next { appendResp (blockBytes b) s with ks := b, phase := .done }
      else .next { s with ks := b, phase := .mix }

/-- MIX (R146): one block of the stream is masked, and the ciphertext block becomes the chaining value. -/
def mixStep (s : State) : Result :=
  match s.cmd.operation with
  | none => .fault .noOperation
  | some op =>
      if op.isBlock then .fault .noOperation
      else
        let len := min 8 ((streamOf op s.cmd).length - s.pos)
        match memRead s.cmd .data (op.streamBase + s.pos) len with
        | none => .fault .readOutside
        | some inp =>
            let o := xorBytes inp (blockBytes s.ks)
            .next { appendResp o s with
                      gamma := if op = .senc then blockOf o else blockOf inp,
                      pos := s.pos + len, phase := .next }

/-- DONE (R35). -/
def doneStep (s : State) : Result := .next (finish s)

/-- The step relation of one engine instance (R33): the one step its phase enables. -/
def seqStep (S : SBox) (s : State) : Result :=
  match s.phase with
  | .idle => acceptStep s
  | .check => checkStep s
  | .kexp => kexpStep s
  | .ivsel => ivselStep s
  | .next => nextStep s
  | .load => loadStep s
  | .round => roundStep S s
  | .pack => packStep s
  | .mix => mixStep s
  | .done => doneStep s

/-- `n` steps of the sequencer, stopping at the first that gives no next state. -/
def seqRun (S : SBox) : Nat → State → Result
  | 0, s => .next s
  | n + 1, s =>
      match seqStep S s with
      | .next t => seqRun S n t
      | .fault f => .fault f
      | .refused r => .refused r

/-- Steps of the sequencer until the engine is idle, at most `n` of them. -/
def runToIdle (S : SBox) : Nat → State → Result
  | 0, s => .next s
  | n + 1, s =>
      if s.phase = .idle then .next s
      else
        match seqStep S s with
        | .next t => runToIdle S n t
        | .fault f => .fault f
        | .refused r => .refused r

/-- How many steps a valid command takes from ACCEPT to DONE: 38 for a block command, `6 + 36 n` for a
stream of `n` blocks (R33). A faulting command takes two. -/
def stepCount (c : Cmd) : Nat :=
  match c.operation with
  | some .senc => 6 + 36 * blockCount (streamOf .senc c).length
  | some .sdec => 6 + 36 * blockCount (streamOf .sdec c).length
  | some .benc => 38
  | some .bdec => 38
  | none => 2

/-- A command handed to the engine (R8, R34). An idle engine accepts it and runs it to its response, or
to the draw it waits for. At a busy engine the command waits, outside the engine, while the engine
takes its next step of the command in progress (DESIGN CHOICE, log entry 9). -/
def present (S : SBox) (c : Cmd) (s : State) : Result :=
  if s.phase = .idle then runToIdle S (stepCount c - 1) (accept c s) else seqStep S s

/-- One step of an engine instance with its reset input (R190, R191). -/
def engineStep (S : SBox) (s : State) : Result :=
  if s.resetIn then .next (applyReset s) else seqStep S s

end Sys2Proof.Machine
end

