-- ==== Sys2Proof/Machine/Commands.lean ====
section
/-! DEFINITION. The four commands: for each its meaning on the state, through the sequencer, and its response
as a function of the command (R10: the function is normative and the steps refine it). -/

namespace Sys2Proof.Machine

/-- The response a function of R123, R141 or R142 gives: its bytes under `OK`, or its fault with an
empty payload (R79, R80, R81). -/
def respond (r : Except CmdFault Bytes) : Response :=
  match r with
  | .ok out => ⟨.ok, out⟩
  | .error f => ⟨.fault f, []⟩

/-! ### Responses as functions of the command -/

/-- The response to `BENC` (R127). -/
def bencResponse (S : SBox) (key data : Bytes) : Response :=
  if data.length ≠ 8 then ⟨.fault .badFrame, []⟩
  else respond ((blockEnc S key (blockOf data)).map blockBytes)

/-- The response to `BDEC` (R128). -/
def bdecResponse (S : SBox) (key data : Bytes) : Response :=
  if data.length ≠ 8 then ⟨.fault .badFrame, []⟩
  else respond ((blockDec S key (blockOf data)).map blockBytes)

/-- The response to `SENC` with an explicit IV (R148). -/
def sencResponse (S : SBox) (key iv data : Bytes) : Response :=
  if key.length ≠ 32 then ⟨.fault .invalidKeyLength, []⟩
  else if iv.length ≠ 8 then ⟨.fault .invalidIVLength, []⟩
  else respond (cfbEnc S key (blockOf iv) data)

/-- The response to `SENC` without an IV, when the draw is answered `d` (R148). -/
def sencDrawnResponse (S : SBox) (key : Bytes) (d : Block) (data : Bytes) : Response :=
  respond (cfbEnc S key d data)

/-- The response to `SDEC` (R149). -/
def sdecResponse (S : SBox) (key env : Bytes) : Response := respond (cfbDec S key env)

/-! ### Meanings -/

/-- The meaning of `BENC` (R127): ACCEPT, CHECK, KEXP, LOAD, 32 x ROUND, PACK, DONE. -/
def execBenc (key data : Bytes) (s : State) : Result :=
  present Config.sbox (Instr.benc key data).toCmd s

/-- The meaning of `BDEC` (R128): the same steps with `DIR = 1`. -/
def execBdec (key data : Bytes) (s : State) : Result :=
  present Config.sbox (Instr.bdec key data).toCmd s

/-- The meaning of `SENC` (R148): ACCEPT, CHECK, KEXP, IVSEL, then NEXT, LOAD, 32 x ROUND, PACK, MIX once a
block, NEXT, DONE. -/
def execSenc (ivp : Bool) (key iv data : Bytes) (s : State) : Result :=
  present Config.sbox (Instr.senc ivp key iv data).toCmd s

/-- The meaning of `SDEC` (R149): the same steps, chaining from the envelope's IV. -/
def execSdec (key data : Bytes) (s : State) : Result :=
  present Config.sbox (Instr.sdec key data).toCmd s

/-- What becomes of a frame that spells no row of the table (R78, R82, R164): it is accepted and refused
at CHECK with `BadFrame`, its strings consumed and ignored (DEDUCED, log entry 12). -/
def rejectFrame (c : Cmd) (s : State) : Result := present Config.sbox c s

end Sys2Proof.Machine
end

