-- ==== Sys2Proof/Machine/Dispatch.lean ====
section
/-! DEFINITION. One arm per row of the opcode table. -/

namespace Sys2Proof.Machine

def exec (i : Instr) (s : State) : Host.Outcome State Fault Refusal :=
  match i with
  | .benc key data => Sys2Proof.Machine.execBenc key data s
  | .bdec key data => Sys2Proof.Machine.execBdec key data s
  | .senc ivp key iv data => Sys2Proof.Machine.execSenc ivp key iv data s
  | .sdec key data => Sys2Proof.Machine.execSdec key data s

end Sys2Proof.Machine
end

