-- ==== Sys2Proof/Machine/Fetch.lean ====
section
/-! DEFINITION. What an idle engine finds at the head of the bytes presented to it (R75, R78, R83), and how a
frame is placed there. -/

namespace Sys2Proof.Machine

/-- What stands at the head of the bytes presented. -/
inductive Fetched where
  /-- No whole frame: no step (R75). -/
  | incomplete
  /-- A frame that spells instruction `i`; the state has consumed it. -/
  | instr (i : Instr) (s : State)
  /-- A whole frame whose word 0 matches no row; the state has consumed it (R82). -/
  | badFrame (c : Cmd) (s : State)
  /-- A valid SENC that no response frame can answer (U6). -/
  | tooLong
  deriving DecidableEq, Repr

/-- The first frame presented, read by the decoder. -/
def fetch (s : State) : Fetched :=
  match decode s.rx with
  | .ok (i, rest) => if answerTooLong i.toCmd then .tooLong else .instr i { s with rx := rest }
  | .error .incomplete => .incomplete
  | .error _ =>
      match splitFrame s.rx with
      | none => .incomplete
      | some (_, c, rest) => .badFrame c { s with rx := rest }

/-- The state in which a table word's frame is what the next step fetches: the engine idle, its reset input
not asserted, and that frame presented (log entry 4). -/
def placeFrame (bs : Bytes) (s : State) : State := { s with phase := .idle, resetIn := false, rx := bs }

/-- What an engine with its reset input not asserted does: an idle one fetches and runs a whole command (R10,
R34; DESIGN CHOICE, log entry 7); one with a command in progress takes the next step of it (R33). -/
def runStep (s : State) : Result :=
  if s.phase = .idle then
    match fetch s with
    | .incomplete => .next s
    | .instr i t => exec i t
    | .badFrame c t => rejectFrame c t
    | .tooLong => .refused .responseTooLong
  else seqStep Config.sbox s

end Sys2Proof.Machine
end

