-- ==== Sys2Proof/Machine/Step.lean ====
section
/-! DEFINITION. One step of the machine. -/

namespace Sys2Proof.Machine

/-- One step: reset if its input is asserted (R190, R191), else `runStep`. -/
def step (s : State) : Host.Outcome State Fault Refusal :=
  if s.resetIn then .next (applyReset s) else runStep s

/-- The state whose next step runs the instruction of a table word (R71, R75). -/
def State.withFetchWord (s : State) (nbits w : Nat) : State := placeFrame (frameOfTableWord nbits w) s

end Sys2Proof.Machine
end

