-- ==== Sys2Proof/Machine/Tables.lean ====
section
/-! DEFINITION. The two test instances of the open parameter `SBOX` (section V1 of 95_test_vectors.md, D22). They
are not the engine's table, and no meaning uses them. -/

namespace Sys2Proof.Machine

/-- `SBOX_ID`: `S(i, v) = v`. -/
def tableId : SBox := fun _ v => v

/-- `SBOX_T`: `S(i, v) = (5 v + 3 i + 1) mod 16`. -/
def tableT : SBox := fun i v => BitVec.ofNat 4 (5 * v.toNat + 3 * i.val + 1)

end Sys2Proof.Machine
end

