-- ==== Sys2Proof/Machine/Text.lean ====
section
/-! DEFINITION. The text notation of commands and responses (R84), as lists of characters: a writer, and a reader
of commands. -/

namespace Sys2Proof.Machine

/-- The lower-case hexadecimal digits in order (R84). -/
def hexDigits : List Char := ['0', '1', '2', '3', '4', '5', '6', '7', '8', '9', 'a', 'b', 'c', 'd', 'e', 'f']

/-- The digit of a nibble. -/
def hexDigit (n : Nibble) : Char := hexDigits.getD n.toNat '0'

/-- The nibble of a digit; upper-case letters are no digits of the notation. -/
def hexValue (c : Char) : Option Nibble := (hexDigits.findIdx? (· == c)).map (BitVec.ofNat 4)

/-- `<hex>`: two digits a byte, first byte first, the high nibble first (R12, R84). -/
def hexText : Bytes → List Char
  | [] => []
  | b :: bs => hexDigit (b.extractLsb' 4 4) :: hexDigit (b.extractLsb' 0 4) :: hexText bs

/-- The longest run of digit pairs at the head of a text, and what follows it. -/
def readHex : List Char → Bytes × List Char
  | a :: b :: t =>
      match hexValue a, hexValue b with
      | some x, some y => ((x ++ y) :: (readHex t).1, (readHex t).2)
      | _, _ => ([], a :: b :: t)
  | t => ([], t)

/-- What follows a given prefix of a text, if the text begins with it. -/
def afterPrefix : List Char → List Char → Option (List Char)
  | [], t => some t
  | _ :: _, [] => none
  | p :: ps, c :: t => if p = c then afterPrefix ps t else none

/-- The mnemonic of a row (R76). -/
def mnemonicText : Op → List Char
  | .benc => ['B', 'E', 'N', 'C']
  | .bdec => ['B', 'D', 'E', 'C']
  | .senc => ['S', 'E', 'N', 'C']
  | .sdec => ['S', 'D', 'E', 'C']

/-- ` key=`, ` iv=` and ` data=` (R84). -/
def keyLabel : List Char := [' ', 'k', 'e', 'y', '=']
def ivLabel : List Char := [' ', 'i', 'v', '=']
def dataLabel : List Char := [' ', 'd', 'a', 't', 'a', '=']

/-- A command in text: `MNEMONIC key=<hex> [iv=<hex>] data=<hex>`, with `iv=` exactly when `IVP = 1` (R84). -/
def commandText (i : Instr) : List Char :=
  mnemonicText i.op ++ keyLabel ++ hexText i.key
    ++ (if i.ivp then ivLabel ++ hexText i.ivField else []) ++ dataLabel ++ hexText i.data

/-- The instruction of a row with the operands a text gives; an `iv=` on a row that takes none spells no
instruction (R77 (c)). -/
def instrOfText (op : Op) (key : Bytes) (iv : Option Bytes) (data : Bytes) : Option Instr :=
  match op, iv with
  | .benc, none => some (.benc key data)
  | .bdec, none => some (.bdec key data)
  | .senc, none => some (.senc false key [] data)
  | .senc, some v => some (.senc true key v data)
  | .sdec, none => some (.sdec key data)
  | _, some _ => none

/-- The row whose mnemonic a text begins with, and what follows it. -/
def readMnemonic (t : List Char) : Option (Op × List Char) :=
  [Op.benc, .bdec, .senc, .sdec].findSome? (fun op => (afterPrefix (mnemonicText op) t).map (fun u => (op, u)))

/-- The text of a command read back (R84); the shorthands `xx*n` and `00..1f` are not read (DESIGN CHOICE, log entry
19). -/
def readCommand (t : List Char) : Option Instr :=
  match readMnemonic t with
  | none => none
  | some (op, t1) =>
      match afterPrefix keyLabel t1 with
      | none => none
      | some t2 =>
          let key := readHex t2
          let iv : Option Bytes × List Char :=
            match afterPrefix ivLabel key.2 with
            | some t3 => (some (readHex t3).1, (readHex t3).2)
            | none => (none, key.2)
          match afterPrefix dataLabel iv.2 with
          | none => none
          | some t4 => if (readHex t4).2 = [] then instrOfText op key.1 iv.1 (readHex t4).1 else none

/-- The name of a status (R80). -/
def statusText : Status → List Char
  | .ok => ['O', 'K']
  | .fault .invalidKeyLength =>
      ['I', 'n', 'v', 'a', 'l', 'i', 'd', 'K', 'e', 'y', 'L', 'e', 'n', 'g', 't', 'h']
  | .fault .invalidIVLength =>
      ['I', 'n', 'v', 'a', 'l', 'i', 'd', 'I', 'V', 'L', 'e', 'n', 'g', 't', 'h']
  | .fault .badFrame => ['B', 'a', 'd', 'F', 'r', 'a', 'm', 'e']

/-- A response in text: `-> STATUS <hex>` (R84), with no space after the name of an empty payload, as R86 writes
`-> InvalidKeyLength` (DEDUCED, log entry 19). -/
def responseText (r : Response) : List Char :=
  ['-', '>', ' '] ++ statusText r.status ++ (if r.out = [] then [] else ' ' :: hexText r.out)

end Sys2Proof.Machine
end

