-- ==== Sys2Proof/Machine/Platform.lean ====
section
/-! DEFINITION. `NUM_ENGINES` engine instances side by side (R7, R178): they share nothing but the S-box table
(R58), and a schedule says which instance steps next (DESIGN CHOICE, log entry 15). -/

namespace Sys2Proof.Machine

/-- The engine instances of a platform, each with its own registers and its own interfaces (R20, R178). -/
structure Platform where
  engines : List State
  deriving DecidableEq, Repr

/-- After reset every instance is in the reset state (R178, R190). -/
def platformReset : Platform := ⟨List.replicate Config.numEngines State.reset⟩

/-- A run has ended: every instance is idle and every response has been taken (R11). -/
def platformEnded (P : Platform) : Bool := P.engines.all runEnded

/-- An outcome of one instance as an outcome of the platform. The spec does not say what the others do when one is
refused (U6) or stops with a fault of the model: here the platform stops with it (DESIGN CHOICE, log entry 21). -/
def platformOutcome (P : Platform) (j : Nat) (r : Result) : Host.Outcome Platform Fault Refusal :=
  match r with
  | .next e => .next ⟨P.engines.set j e⟩
  | .fault f => .fault f
  | .refused x => .refused x

/-- Instance `j` takes one step; the others do not move (R58). An index of no instance is no step. -/
def platformStep (S : SBox) (j : Nat) (P : Platform) : Host.Outcome Platform Fault Refusal :=
  match P.engines[j]? with
  | none => .next P
  | some e => platformOutcome P j (engineStep S e)

/-! ### The acts of the other agents on an instance (R8, R190) -/

/-- What the host, the entropy source or the reset input can do to an engine between its steps. -/
inductive Act where
  /-- The host presents bytes (R34, R75). -/
  | present (bs : Bytes)
  /-- The host takes the oldest response, if there is one (R8). -/
  | take
  /-- The entropy source readies an answer (R32). -/
  | answer (b : Block)
  /-- The reset input is asserted (R190). -/
  | reset
  deriving DecidableEq, Repr

/-- The effect of an act on one instance. -/
def actEffect : Act → State → State
  | .present bs, s => hostPresent bs s
  | .take, s =>
      match hostTake s with
      | none => s
      | some (_, t) => t
  | .answer b, s => entropyAnswer b s
  | .reset, s => assertReset s

/-- An act of the host or of the entropy source on instance `j` (R8, R178). -/
def actOn (j : Nat) (act : State → State) (P : Platform) : Platform :=
  match P.engines[j]? with
  | none => P
  | some e => ⟨P.engines.set j (act e)⟩

/-! ### Schedules -/

/-- What a schedule can hold for an instance: a step of its own, or an act of another agent on it. -/
inductive Event where
  | step
  | act (a : Act)
  deriving DecidableEq, Repr

/-- An event of one instance alone. -/
def engineEvent (S : SBox) : Event → State → Result
  | .step, e => engineStep S e
  | .act a, e => .next (actEffect a e)

/-- An event of instance `j` of a platform. -/
def platformEvent (S : SBox) (j : Nat) : Event → Platform → Host.Outcome Platform Fault Refusal
  | .step, P => platformStep S j P
  | .act a, P => .next (actOn j (actEffect a) P)

/-- The events of a schedule in its order, each of the instance it names: any interleaving (R58, R178). The first step
that is refused or stops with a fault ends the run of the whole platform (DESIGN CHOICE, log entry 21). -/
def platformRun (S : SBox) : List (Nat × Event) → Platform → Host.Outcome Platform Fault Refusal
  | [], P => .next P
  | x :: xs, P =>
      match platformEvent S x.1 x.2 P with
      | .next Q => platformRun S xs Q
      | .fault f => .fault f
      | .refused r => .refused r

/-- One instance alone through a list of events. -/
def engineRun (S : SBox) : List Event → State → Result
  | [], s => .next s
  | x :: xs, s =>
      match engineEvent S x s with
      | .next t => engineRun S xs t
      | .fault f => .fault f
      | .refused r => .refused r

/-- The events of a schedule that are instance `j`'s own, in their order. -/
def ownEvents (j : Nat) : List (Nat × Event) → List Event
  | [] => []
  | x :: xs => if x.1 = j then x.2 :: ownEvents j xs else ownEvents j xs

end Sys2Proof.Machine
end

