-- ==== Sys2Proof/Safety.lean ====
section
/-! DEFINITION. What holds of the registers in each phase of a command that CHECK has let pass, and when a machine
runs without stopping: the terms the statements use. -/

namespace Sys2Proof.Machine

/-- The latched command has passed CHECK, and `DIR` is as CHECK set it (R29, R162). -/
def Checked (s : State) : Prop := checkCmd s.cmd = none ∧ s.dir = dirOf s.cmd.operation

/-- The subkeys are those of the key of the command in progress (R21, R104, R193). -/
def Keyed (s : State) : Prop := s.k = subkeysOf s.cmd.key

/-- The command in progress is a streaming command (R26). -/
def Streaming (s : State) : Prop := s.cmd.operation = some .senc ∨ s.cmd.operation = some .sdec

/-- The stream of a command (R28); a block command has none. -/
def commandStream (c : Cmd) : Bytes :=
  match c.operation with
  | some .senc => streamOf .senc c
  | some .sdec => streamOf .sdec c
  | some .benc => []
  | some .bdec => []
  | none => []

/-- The 8-byte input of the block transform in progress (R124). -/
def currentSource (s : State) : Block :=
  match s.cmd.operation with
  | some .senc => s.gamma
  | some .sdec => s.gamma
  | some .benc => blockOf s.cmd.data
  | some .bdec => blockOf s.cmd.data
  | none => blockOf s.cmd.data

/-- A SENC that chained from `iv` may have done so: the explicit IV if there is one, any block if not (R144). -/
def IvAdmitted (c : Cmd) (iv : Block) : Prop := c.ivp = true → iv = blockOf c.ivField

/-- Between blocks, the response so far and what the rest of the stream will add to it, from the
chaining register, make the whole answer (R147). -/
def StreamProgress (S : SBox) (s : State) : Prop :=
  match s.cmd.operation with
  | some .senc =>
      ∃ iv, IvAdmitted s.cmd iv ∧
        s.resp ++ cfbEncFrom S s.k s.gamma (streamBlocks ((commandStream s.cmd).drop s.pos))
          = blockBytes iv ++ cfbEncFrom S s.k iv (streamBlocks (commandStream s.cmd))
  | some .sdec =>
      s.resp ++ cfbDecFrom S s.k s.gamma (streamBlocks ((commandStream s.cmd).drop s.pos))
        = cfbDecFrom S s.k (blockOf s.cmd.data) (streamBlocks (commandStream s.cmd))
  | _ => False

/-- A block is about to be transformed, or is being so: a block command has no response yet, and a
streaming command stands at the start of a block of its stream (R28, R54). -/
def InBlock (S : SBox) (s : State) : Prop :=
  (¬ Streaming s → s.resp = []) ∧
  (Streaming s → StreamProgress S s ∧ s.pos < (commandStream s.cmd).length ∧ s.pos % 8 = 0)

/-- The running pair is the pair after `RND` rounds of `BlockCore` on its input (R122, R125). -/
def PairAfter (S : SBox) (s : State) : Prop :=
  (s.n1, s.n2)
    = rounds S s.k (idxOf s.dir) (firstHalf (currentSource s), secondHalf (currentSource s)) s.rnd.val

/-- `RESP` holds the answer of the command (R127, R128, R147). -/
def Answered (S : SBox) (s : State) : Prop :=
  match s.cmd.operation with
  | some .benc => s.resp = blockBytes (blockCore S s.k encIdx (blockOf s.cmd.data))
  | some .bdec => s.resp = blockBytes (blockCore S s.k decIdx (blockOf s.cmd.data))
  | some .senc =>
      ∃ iv, IvAdmitted s.cmd iv ∧
        s.resp = blockBytes iv ++ cfbEncFrom S s.k iv (streamBlocks (commandStream s.cmd))
  | some .sdec => s.resp = cfbDecFrom S s.k (blockOf s.cmd.data) (streamBlocks (commandStream s.cmd))
  | none => False

/-- The invariant of the sequencer: what each phase may rely on (R28, R38, R122, R147). At NEXT, `POS` is a multiple
of 8 or at the end of the stream (DEDUCED, log entry 17). -/
def SeqInv (S : SBox) (s : State) : Prop :=
  match s.phase with
  | .idle => True
  | .check => True
  | .kexp => Checked s ∧ s.resp = []
  | .ivsel => Checked s ∧ Keyed s ∧ Streaming s ∧ s.resp = []
  | .next =>
      Checked s ∧ Keyed s ∧ Streaming s ∧ StreamProgress S s ∧
        s.pos ≤ (commandStream s.cmd).length ∧ (s.pos % 8 = 0 ∨ s.pos = (commandStream s.cmd).length)
  | .load => Checked s ∧ Keyed s ∧ InBlock S s
  | .round => Checked s ∧ Keyed s ∧ InBlock S s ∧ s.rnd.val < 32 ∧ PairAfter S s
  | .pack => Checked s ∧ Keyed s ∧ InBlock S s ∧ s.rnd.val = 32 ∧ PairAfter S s
  | .mix => Checked s ∧ Keyed s ∧ Streaming s ∧ InBlock S s ∧ s.ks = blockCore S s.k encIdx s.gamma
  | .done => Checked s ∧ Keyed s ∧ Answered S s

/-- The command breaks a frame constraint of R77, or its opcode is in no row (R82): group 1 of R162. -/
def BreaksFrame (c : Cmd) : Prop :=
  c.operation = none ∨ c.reserved ≠ 0 ∨ (c.ivp = false ∧ c.ivField ≠ []) ∨
    (c.ivp = true ∧ c.operation ≠ some .senc) ∨
    ((c.operation = some .benc ∨ c.operation = some .bdec) ∧ c.data.length ≠ 8)

/-- The command's IV has the wrong length: an explicit one of a SENC, or an envelope of an SDEC that is
shorter than 8 bytes (R163): group 3 of R162. -/
def BreaksIv (c : Cmd) : Prop :=
  (c.operation = some .senc ∧ ∃ iv, c.iv = some iv ∧ iv.length ≠ 8) ∨
    (c.operation = some .sdec ∧ c.data.length < 8)

/-- The command draws from the entropy source: a SENC without IV (R32, R144). -/
def NeedsDraw (c : Cmd) : Prop := c.operation = some .senc ∧ c.ivp = false

/-- The engine waits for the entropy source: a SENC without IV in IVSEL, and no answer ready (R177, U4). -/
def AwaitsDraw (s : State) : Prop :=
  s.phase = .ivsel ∧ s.cmd.operation = some .senc ∧ s.cmd.ivp = false ∧ s.draws = []

end Sys2Proof.Machine
end

