-- ==== Sys2Proof/Certificates/Slice0/Obligations.lean ====
section
/-! DEFINITION. The statements about the model, each with the rule of the spec it rests on. `S` is any S-box table (R100:
every rule holds for every table); the meanings run with the engine's own, `Config.sbox`. -/

open Sys2Proof Sys2Proof.Machine

/-! ### Encoding -/

/-- R86: the three worked command frames and the two worked response frames. -/
def Obligations.WorkedFramesReadAsTheirCommands : Prop :=
  let key : Bytes := (List.range 32).map (BitVec.ofNat 8)
  let iv : Bytes := [0x01, 0x02, 0x03, 0x04, 0x05, 0x06, 0x07, 0x08]
  let hello : Bytes := [0x48, 0x65, 0x6c, 0x6c, 0x6f, 0x2c, 0x20, 0x77, 0x6f, 0x72, 0x6c, 0x64, 0x21]
  let f1 : Bytes := [0x01, 0x00, 0x20, 0x00, 0x08, 0x00, 0x00, 0x00] ++ key ++ List.replicate 8 0
  let f2 : Bytes := [0x03, 0x01, 0x20, 0x08, 0x0d, 0x00, 0x00, 0x00] ++ key ++ iv ++ hello
  let f3 : Bytes := [0x03, 0x00, 0x20, 0x00, 0x00, 0x00, 0x00, 0x00] ++ key
  (decode f1 = .ok (.benc key (List.replicate 8 0), []) ∧ f1.length = 48 ∧
    (readHeader f1).map Prod.fst = some ⟨0x00200001, 0x00000008⟩) ∧
  (decode f2 = .ok (.senc true key iv hello, []) ∧ f2.length = 61 ∧
    (readHeader f2).map Prod.fst = some ⟨0x08200103, 0x0000000D⟩) ∧
  (decode f3 = .ok (.senc false key [] [], []) ∧ f3.length = 40) ∧
  Response.encode ⟨.ok, iv⟩ = some ([0x00, 0x00, 0x00, 0x00, 0x08, 0x00, 0x00, 0x00] ++ iv) ∧
  Response.encode ⟨.fault .invalidKeyLength, []⟩ = some [0x01, 0x00, 0x00, 0x00, 0x00, 0x00, 0x00, 0x00]

/-- R74, R84: decoding the frame of a well-formed instruction, whatever bytes follow it, gives the instruction and those
bytes. -/
def Obligations.DecodeInvertsEncode : Prop :=
  ∀ (i : Instr) (rest : Bytes), i.wellFormed = true → decode (encode i ++ rest) = .ok (i, rest)

/-- R73, R74, R83: what the decoder reads as an instruction is that instruction's own frame. -/
def Obligations.EncodeInvertsDecode : Prop :=
  ∀ (bs rest : Bytes) (i : Instr), decode bs = .ok (i, rest) → i.wellFormed = true ∧ bs = encode i ++ rest

/-- R77 (a), R77 (c), R78: a word 0 matches a row exactly when it has the row's opcode, no reserved bit, and, for BENC,
BDEC and SDEC, neither `IVP` nor an IV length. -/
def Obligations.RowsMatchWhatTheFieldsSay : Prop :=
  ∀ (h : Header) (op : Op),
    rowOf h.w0 = some op ↔
      h.op = op.code ∧ h.reserved = 0 ∧ (op ≠ .senc → h.ivp = false ∧ h.ivlen = 0)

/-- R78: no word 0 matches two rows. -/
def Obligations.RowsAreExclusive : Prop :=
  ∀ (w0 : Word) (r r' : OpRow), r ∈ opcodeRows → r' ∈ opcodeRows → r.hits w0 = true → r'.hits w0 = true → r = r'

/-- R73, R75, R83: a frame is whole exactly when all the bytes its header counts are there, exactly those are taken, and
after the header stand its three strings, in the order key, IV, data, each as long as the header says. -/
def Obligations.FrameLengthComesFromItsHeader : Prop :=
  (∀ (bs rest : Bytes) (h : Header) (c : Cmd), splitFrame bs = some (h, c, rest) →
    readHeader bs = some (h, c.key ++ c.ivField ++ c.data ++ rest) ∧
    c.key.length = h.klen ∧ c.ivField.length = h.ivlen ∧ c.data.length = h.dlen ∧
    h.frameLength = 8 + c.key.length + c.ivField.length + c.data.length ∧
    rest = bs.drop h.frameLength ∧ h.frameLength ≤ bs.length) ∧
  (∀ (bs : Bytes), splitFrame bs = none ↔
    bs.length < 8 ∨ ∃ h body, readHeader bs = some (h, body) ∧ bs.length < h.frameLength)

/-- R79, R80, R81: a response that fits `RLEN` has a frame of `8 + RLEN` bytes that the host reads back as that response;
one that does not fit has none. -/
def Obligations.ResponseFramesReadBack : Prop :=
  ∀ (r : Response) (rest : Bytes),
    (r.out.length < 4294967296 →
      ∃ f, Response.encode r = some f ∧ f.length = 8 + r.out.length ∧ readResponse (f ++ rest) = some (r, rest)) ∧
    (4294967296 ≤ r.out.length → Response.encode r = none)

/-- R84: the text of every command whose IV bytes are shown (`iv=` appears exactly when `IVP = 1`) is read back as the
command. -/
def Obligations.TextOfACommandReadsBack : Prop :=
  ∀ i : Instr, (i.ivp = true ∨ i.ivField = []) → readCommand (commandText i) = some i

/-! ### The functions of files 40 to 42 -/

/-- R101: row `i` substitutes nibble `i`, and no nibble moves. -/
def Obligations.SubWorksNibbleByNibble : Prop :=
  (∀ (S : SBox) (t : Word) (i : Fin 8), nibble (sub S t) i.val = S i (nibble t i.val)) ∧
  sub tableId 0x12345678 = 0x12345678 ∧ sub tableT 0x00000000 = 0x630DA741 ∧ sub tableT 0x12345678 = 0xBDF13579

/-- R105: add modulo `2^32`, substitute, then move bit `j` to bit `(j + 11) mod 32`. -/
def Obligations.RoundFunctionAddsSubstitutesRotates : Prop :=
  (∀ (S : SBox) (a k : Word) (j : Nat), j < 32 →
    (roundF S a k).getLsbD ((j + 11) % 32) =
      (sub S (BitVec.ofNat 32 ((a.toNat + k.toNat) % 2 ^ 32))).getLsbD j) ∧
  roundF tableId 0x12345678 0 = 0xA2B3C091 ∧ roundF tableId 0x00000001 0 = 0x00000800 ∧
  roundF tableId 0x00100000 0 = 0x80000000 ∧ roundF tableId 0x00200000 0 = 0x00000001 ∧
  roundF tableId 0xFFFFFFFF 1 = 0 ∧ roundF tableT 0 0 = 0x6D3A0B18

/-- R102: eight consecutive little-endian words of a 32-byte key, `InvalidKeyLength` for every other length, and different
keys have different subkeys. -/
def Obligations.KeyScheduleSlicesTheKey : Prop :=
  (∀ key : Bytes, key.length = 32 →
    ∃ K, keySchedule key = .ok K ∧
      ∀ i : Fin 8, (subkeyAt K i).toNat =
        (key.getD (4 * i.val) 0).toNat + 2 ^ 8 * (key.getD (4 * i.val + 1) 0).toNat
          + 2 ^ 16 * (key.getD (4 * i.val + 2) 0).toNat + 2 ^ 24 * (key.getD (4 * i.val + 3) 0).toNat) ∧
  (∀ key : Bytes, key.length ≠ 32 → keySchedule key = .error .invalidKeyLength) ∧
  (∀ k1 k2 : Bytes, k1.length = 32 → k2.length = 32 → keySchedule k1 = keySchedule k2 → k1 = k2) ∧
  keySchedule ((List.range 32).map (BitVec.ofNat 8)) =
    .ok ⟨0x03020100, 0x07060504, 0x0B0A0908, 0x0F0E0D0C, 0x13121110, 0x17161514, 0x1B1A1918, 0x1F1E1D1C⟩

/-- R120: the two key orders, by formula and written out, and each is the other reversed. -/
def Obligations.KeyOrdersMirrorEachOther : Prop :=
  (∀ r, r < 24 → (encIdx r).val = r % 8) ∧ (∀ r, 24 ≤ r → r < 32 → (encIdx r).val = 31 - r) ∧
  (∀ r, r < 8 → (decIdx r).val = r) ∧ (∀ r, 8 ≤ r → r < 32 → (decIdx r).val = 7 - r % 8) ∧
  (List.range 32).map encIdx =
    [0, 1, 2, 3, 4, 5, 6, 7, 0, 1, 2, 3, 4, 5, 6, 7, 0, 1, 2, 3, 4, 5, 6, 7, 7, 6, 5, 4, 3, 2, 1, 0] ∧
  (List.range 32).map decIdx =
    [0, 1, 2, 3, 4, 5, 6, 7, 7, 6, 5, 4, 3, 2, 1, 0, 7, 6, 5, 4, 3, 2, 1, 0, 7, 6, 5, 4, 3, 2, 1, 0] ∧
  (∀ r, r < 32 → decIdx r = encIdx (31 - r))

/-- R122, conflict C2: the swapped packing is the same as a last round that changes the first half in place and natural
packing. -/
def Obligations.LastRoundChangesTheFirstHalfInPlace : Prop :=
  ∀ (S : SBox) (K : Subkeys) (idx : Nat → Fin 8) (b : Block),
    let p := rounds S K idx (firstHalf b, secondHalf b) 31
    blockCore S K idx b = packHalves (p.1 ^^^ roundF S p.2 (subkeyAt K (idx 31))) p.2

/-- R129: the block transform is a bijection for every table and every 32-byte key, each direction inverse to the other. -/
def Obligations.BlockTransformRoundTrips : Prop :=
  ∀ (S : SBox) (key : Bytes) (b : Block), key.length = 32 →
    (∃ c, blockEnc S key b = .ok c ∧ blockDec S key c = .ok b) ∧
    (∃ c, blockDec S key b = .ok c ∧ blockEnc S key c = .ok b)

/-- R151: the stream round trip, as functions and as commands with an explicit or a drawn IV. -/
def Obligations.StreamRoundTrips : Prop :=
  ∀ (S : SBox) (key : Bytes) (iv : Block) (p : Bytes), key.length = 32 →
    (∃ e, cfbEnc S key iv p = .ok e ∧ cfbDec S key e = .ok p) ∧
    (∀ e, sencResponse S key (blockBytes iv) p = ⟨.ok, e⟩ → sdecResponse S key e = ⟨.ok, p⟩) ∧
    (∀ e, sencDrawnResponse S key iv p = ⟨.ok, e⟩ → sdecResponse S key e = ⟨.ok, p⟩)

/-- R152: the output stream has exactly the length of the input stream. -/
def Obligations.StreamLengthsAreKept : Prop :=
  (∀ (S : SBox) (key : Bytes) (iv : Block) (p e : Bytes), cfbEnc S key iv p = .ok e → e.length = 8 + p.length) ∧
  (∀ (S : SBox) (key e p : Bytes), 8 ≤ e.length → cfbDec S key e = .ok p → p.length = e.length - 8)

/-- R148 (5): plaintexts that agree on their first `m` bytes have envelopes that agree on their first `8 + m`. -/
def Obligations.CommonPrefixesGiveCommonEnvelopes : Prop :=
  ∀ (S : SBox) (key : Bytes) (iv : Block) (p q e f : Bytes) (m : Nat),
    m ≤ p.length → m ≤ q.length → p.take m = q.take m →
    cfbEnc S key iv p = .ok e → cfbEnc S key iv q = .ok f → e.take (8 + m) = f.take (8 + m)

/-- R149 (4): block `i` of the plaintext, counting from 0, depends only on bytes `8i .. 8i+16)` of the envelope: the
ciphertext block before it, or the IV, and its own. -/
def Obligations.DecryptionSynchronisesItself : Prop :=
  ∀ (S : SBox) (key e f p q : Bytes) (i : Nat),
    e.length = f.length → 8 ≤ e.length → (e.drop (8 * i)).take 16 = (f.drop (8 * i)).take 16 →
    cfbDec S key e = .ok p → cfbDec S key f = .ok q → (p.drop (8 * i)).take 8 = (q.drop (8 * i)).take 8

/-! ### The steps of the sequencer -/

/-- R34, R75: an idle engine latches a whole frame, and nothing else changes; an incomplete one gives no step; a busy
engine leaves what is presented alone. The premise on `answerTooLong` is the model's refusal of U6 (log entry 11), and
that "no step" is a step that changes nothing is the model's choice (log entry 10). -/
def Obligations.AcceptLatchesAWholeCommand : Prop :=
  (∀ (S : SBox) (s : State) (h : Header) (c : Cmd) (rest : Bytes),
    s.phase = .idle → splitFrame s.rx = some (h, c, rest) → answerTooLong c = false →
    seqStep S s = .next { s with cmd := c, phase := .check, rx := rest }) ∧
  (∀ (S : SBox) (s : State), s.phase = .idle → splitFrame s.rx = none → seqStep S s = .next s) ∧
  (∀ (S : SBox) (s t : State), s.phase ≠ .idle → seqStep S s = .next t → t.rx = s.rx)

/-- R162, R165: CHECK reports the first fault in its order, and else lets the command pass. -/
def Obligations.CheckReportsTheFirstFault : Prop :=
  ∀ (S : SBox) (s : State), s.phase = .check →
    (BreaksFrame s.cmd →
      seqStep S s = .next { s with phase := .idle, tx := s.tx ++ [⟨.fault .badFrame, []⟩] }) ∧
    (¬ BreaksFrame s.cmd → s.cmd.key.length ≠ 32 →
      seqStep S s = .next { s with phase := .idle, tx := s.tx ++ [⟨.fault .invalidKeyLength, []⟩] }) ∧
    (¬ BreaksFrame s.cmd → s.cmd.key.length = 32 → BreaksIv s.cmd →
      seqStep S s = .next { s with phase := .idle, tx := s.tx ++ [⟨.fault .invalidIVLength, []⟩] }) ∧
    (¬ BreaksFrame s.cmd → s.cmd.key.length = 32 → ¬ BreaksIv s.cmd →
      seqStep S s = .next { s with dir := if s.cmd.operation = some .bdec then .decrypt else .encrypt, resp := [],
                                   phase := .kexp })

/-- R170: raising a fault delivers its code with an empty payload and writes no register but `PHASE`. -/
def Obligations.RaisingAFaultWritesOnlyThePhase : Prop :=
  ∀ (S : SBox) (s : State) (f : CmdFault), s.phase = .check → checkCmd s.cmd = some f →
    seqStep S s = .next { s with phase := .idle, tx := s.tx ++ [⟨.fault f, []⟩] } ∧
    Response.encode ⟨.fault f, []⟩ = some [f.code, 0, 0, 0, 0, 0, 0, 0]

/-- R104: KEXP writes all eight subkeys from the command's key and goes on by the opcode; no other step writes them. -/
def Obligations.KexpDerivesTheSubkeys : Prop :=
  (∀ (S : SBox) (s : State) (op : Op), s.phase = .kexp → s.cmd.operation = some op → s.cmd.key.length = 32 →
    ∃ K, keySchedule s.cmd.key = .ok K ∧
      seqStep S s =
        .next { s with k := K, phase := if op = .benc ∨ op = .bdec then .load else .ivsel }) ∧
  (∀ (S : SBox) (s t : State), s.phase ≠ .kexp → seqStep S s = .next t → t.k = s.k)

/-- R144: IVSEL chooses the IV, chains from it and, in SENC, emits it; the draw happens here and only here. -/
def Obligations.IvselChoosesTheIv : Prop :=
  (∀ (S : SBox) (s : State) (iv : Block), s.phase = .ivsel → s.cmd.operation = some .senc →
    s.cmd.iv = some (blockBytes iv) →
    seqStep S s = .next { s with gamma := iv, resp := s.resp ++ blockBytes iv, pos := 0, phase := .next }) ∧
  (∀ (S : SBox) (s : State) (d : Block) (ds : List Block), s.phase = .ivsel → s.cmd.operation = some .senc →
    s.cmd.iv = none → s.draws = d :: ds →
    seqStep S s =
      .next { s with gamma := d, resp := s.resp ++ blockBytes d, pos := 0, phase := .next, draws := ds }) ∧
  (∀ (S : SBox) (s : State) (iv : Block) (c : Bytes), s.phase = .ivsel → s.cmd.operation = some .sdec →
    s.cmd.data = blockBytes iv ++ c →
    seqStep S s = .next { s with gamma := iv, pos := 0, phase := .next }) ∧
  (∀ (S : SBox) (s t : State), seqStep S s = .next t → t.draws ≠ s.draws →
    s.phase = .ivsel ∧ NeedsDraw s.cmd ∧ ∃ d, s.draws = d :: t.draws)

/-- R145: NEXT ends the stream or starts its next block, and writes nothing but `PHASE`. -/
def Obligations.NextWritesOnlyThePhase : Prop :=
  ∀ (S : SBox) (s : State) (stream : Bytes), s.phase = .next →
    (s.cmd.operation = some .senc ∧ stream = s.cmd.data ∨
      s.cmd.operation = some .sdec ∧ stream = s.cmd.data.drop 8) →
    seqStep S s = .next { s with phase := if s.pos = stream.length then .done else .load }

/-- R124: LOAD takes the running pair from the block of a block command or from the chaining register. -/
def Obligations.LoadTakesItsSource : Prop :=
  (∀ (S : SBox) (s : State) (b : Block), s.phase = .load →
    (s.cmd.operation = some .benc ∨ s.cmd.operation = some .bdec) → s.cmd.data = blockBytes b →
    seqStep S s =
      .next { s with n1 := le32 b.b0 b.b1 b.b2 b.b3, n2 := le32 b.b4 b.b5 b.b6 b.b7, rnd := 0, phase := .round }) ∧
  (∀ (S : SBox) (s : State), s.phase = .load →
    (s.cmd.operation = some .senc ∨ s.cmd.operation = some .sdec) →
    seqStep S s =
      .next { s with n1 := le32 s.gamma.b0 s.gamma.b1 s.gamma.b2 s.gamma.b3,
                     n2 := le32 s.gamma.b4 s.gamma.b5 s.gamma.b6 s.gamma.b7, rnd := 0, phase := .round })

/-- R121, R125: ROUND performs round `RND` on the old pair, with the subkey the key order selects; 32 of them from a LOAD
are the loop of `BlockCore`. -/
def Obligations.RoundUpdatesThePair : Prop :=
  (∀ (S : SBox) (s : State), s.phase = .round → s.rnd.val < 32 →
    ∃ t, seqStep S s = .next t ∧
      t = { s with n1 := s.n2,
                   n2 := s.n1 ^^^ roundF S s.n2
                     (subkeyAt s.k (if s.dir = .encrypt then encIdx s.rnd.val else decIdx s.rnd.val)),
                   rnd := t.rnd, phase := if s.rnd.val + 1 = 32 then .pack else .round } ∧
      t.rnd.val = s.rnd.val + 1) ∧
  (∀ (S : SBox) (s : State), s.phase = .round → s.rnd.val = 0 →
    ∃ t, seqRun S 32 s = .next t ∧ t.phase = .pack ∧
      (t.n1, t.n2) = rounds S s.k (if s.dir = .encrypt then encIdx else decIdx) (s.n1, s.n2) 32)

/-- R126: PACK writes the final `N2` first and the final `N1` second, and a block command's response gets it; from a LOAD
on, that is `BlockCore` of its source. -/
def Obligations.PackSwapsTheHalves : Prop :=
  (∀ (S : SBox) (s : State), s.phase = .pack →
    let b := packHalves s.n2 s.n1
    ((s.cmd.operation = some .benc ∨ s.cmd.operation = some .bdec) →
      seqStep S s = .next { s with ks := b, resp := s.resp ++ blockBytes b, phase := .done }) ∧
    ((s.cmd.operation = some .senc ∨ s.cmd.operation = some .sdec) →
      seqStep S s = .next { s with ks := b, phase := .mix })) ∧
  (∀ (S : SBox) (s : State) (src : Block), s.phase = .load →
    ((s.cmd.operation = some .benc ∨ s.cmd.operation = some .bdec) ∧ s.cmd.data = blockBytes src ∨
      (s.cmd.operation = some .senc ∨ s.cmd.operation = some .sdec) ∧ s.gamma = src) →
    ∃ t, seqRun S 34 s = .next t ∧
      t.ks = blockCore S s.k (if s.dir = .encrypt then encIdx else decIdx) src)

/-- R143, R146: MIX masks the next `L` bytes of the stream, appends them, and chains from the ciphertext block, padded with
zeros at its end: the one produced in SENC, the one consumed in SDEC. -/
def Obligations.MixMasksAndChains : Prop :=
  ∀ (S : SBox) (s : State) (base : Nat), s.phase = .mix →
    (s.cmd.operation = some .senc ∧ base = 0 ∨ s.cmd.operation = some .sdec ∧ base = 8) →
    s.pos < s.cmd.data.length - base →
    let len := min 8 (s.cmd.data.length - base - s.pos)
    let inp := (s.cmd.data.drop (base + s.pos)).take len
    let o := List.zipWith (· ^^^ ·) inp ((blockBytes s.ks).take len)
    let c := if s.cmd.operation = some .senc then o else inp
    inp.length = len ∧ o.length = len ∧ 1 ≤ len ∧
    ∃ t, seqStep S s = .next t ∧ blockBytes t.gamma = c ++ List.replicate (8 - len) 0 ∧
      t = { s with resp := s.resp ++ o, gamma := t.gamma, pos := s.pos + len, phase := .next }

/-- R35: DONE delivers `(OK, RESP)` and the engine is idle. That the registers keep what they held is the model's choice
(log entry 8): R37 and R200 leave them unspecified after a command. -/
def Obligations.DoneDeliversTheResponse : Prop :=
  ∀ (S : SBox) (s : State), s.phase = .done →
    seqStep S s = .next { s with tx := s.tx ++ [⟨.ok, s.resp⟩], phase := .idle }

/-! ### The sequencer as a whole -/

/-- R33, R75, R177: the phase each step leaves the engine in. Besides the 15 pairs of R33's table, an idle engine without
a whole frame and an IVSEL without an answer stay where they are and change nothing; R75 and R177 enable no step there,
and that the model has such a step is its choice (log entry 10). -/
def Obligations.PhasesFollowTheTable : Prop :=
  ∀ (S : SBox) (s t : State), seqStep S s = .next t →
    (s.phase, t.phase) ∈
      [(Phase.idle, Phase.check), (.check, .kexp), (.check, .idle), (.kexp, .load), (.kexp, .ivsel), (.ivsel, .next),
       (.next, .done), (.next, .load), (.load, .round), (.round, .round), (.round, .pack), (.pack, .done), (.pack, .mix),
       (.mix, .next), (.done, .idle)] ∨
    (t = s ∧ (s.phase = .idle ∧ splitFrame s.rx = none ∨ AwaitsDraw s))

/-- R30, R62, R79, R167: a step delivers at most one response, only as it returns the engine to `IDLE`; CHECK delivers
faults with an empty payload and DONE delivers `OK`; and an engine that becomes idle has delivered one. -/
def Obligations.OneResponseEndsACommand : Prop :=
  ∀ (S : SBox) (s t : State), seqStep S s = .next t →
    (t.tx = s.tx ∧ (s.phase ≠ .idle → t.phase ≠ .idle)) ∨
    (t.phase = .idle ∧
      (s.phase = .check ∧ (∃ f, t.tx = s.tx ++ [⟨.fault f, []⟩]) ∨
       s.phase = .done ∧ t.tx = s.tx ++ [⟨.ok, s.resp⟩]))

/-- R29, R57, R34: while a command is in progress its latch does not change, and the response under assembly is emptied at
CHECK and only ever appended to. -/
def Obligations.LatchesKeepTheCommandInProgress : Prop :=
  ∀ (S : SBox) (s t : State), s.phase ≠ .idle → seqStep S s = .next t →
    t.cmd = s.cmd ∧
    (t.resp = [] ∧ s.phase = .check ∨ ∃ v, t.resp = s.resp ++ v) ∧
    (t.dir = s.dir ∨ s.phase = .check)

/-- R23: no step of a block command changes the chaining register or the stream offset. -/
def Obligations.BlockCommandsLeaveTheChainAlone : Prop :=
  ∀ (S : SBox) (s t : State), (s.cmd.operation = some .benc ∨ s.cmd.operation = some .bdec) →
    seqStep S s = .next t → t.gamma = s.gamma ∧ t.pos = s.pos

/-- R33, R199: a valid command takes 38 steps, or `6 + 36 n` for a stream of `n` blocks, is busy until the last of them,
and ends with one `OK` response; a SENC without IV needs an answered draw. -/
def Obligations.CommandsTakeTheirStepCounts : Prop :=
  ∀ (S : SBox) (s : State) (h : Header) (c : Cmd) (rest : Bytes),
    s.phase = .idle → splitFrame s.rx = some (h, c, rest) → answerTooLong c = false → checkCmd c = none →
    (NeedsDraw c → s.draws ≠ []) →
    let n :=
      if c.operation = some .senc then 6 + 36 * ((c.data.length + 7) / 8)
      else if c.operation = some .sdec then 6 + 36 * ((c.data.length - 8 + 7) / 8)
      else 38
    (∃ t out, seqRun S n s = .next t ∧ t.phase = .idle ∧ t.tx = s.tx ++ [⟨.ok, out⟩] ∧ t.rx = rest) ∧
    (∀ k, 0 < k → k < n → ∃ u, seqRun S k s = .next u ∧ u.phase ≠ .idle ∧ u.tx = s.tx)

/-- R33, R170: a faulting command takes two steps, ACCEPT and CHECK, and writes `CMD` and `PHASE` only. -/
def Obligations.FaultingCommandsTakeTwoSteps : Prop :=
  ∀ (S : SBox) (s : State) (h : Header) (c : Cmd) (rest : Bytes) (f : CmdFault),
    s.phase = .idle → splitFrame s.rx = some (h, c, rest) → checkCmd c = some f →
    seqRun S 2 s = .next { s with cmd := c, rx := rest, tx := s.tx ++ [⟨.fault f, []⟩] }

/-- R177, U4: a SENC without IV waits in IVSEL while the entropy source is silent, and goes on with the answer once there
is one. That waiting is a step that changes nothing is the model's choice (log entry 10). -/
def Obligations.SilentEntropySourceHoldsTheCommand : Prop :=
  ∀ (S : SBox) (s : State), AwaitsDraw s →
    (∀ n, seqRun S n s = .next s) ∧
    (∀ d, seqStep S (entropyAnswer d s) =
      .next { s with gamma := d, resp := s.resp ++ blockBytes d, pos := 0, phase := .next })

/-! ### Invariants -/

/-- The invariant holds after reset (R190). -/
def Obligations.ResetMeetsTheInvariant : Prop := ∀ S : SBox, SeqInv S State.reset

/-- R28, R38, R122, R147: every step of the sequencer keeps the invariant, from every state that meets it. -/
def Obligations.SequencerKeepsTheInvariant : Prop :=
  ∀ (S : SBox) (s t : State), SeqInv S s → seqStep S s = .next t → SeqInv S t

/-- Every step of the machine keeps the invariant, from every state that meets it. -/
def Obligations.StepKeepsTheInvariant : Prop :=
  ∀ s t : State, SeqInv Config.sbox s → step s = .next t → SeqInv Config.sbox t

/-- R38, R167, R168: where the invariant holds, no step reads what is not there or finds a phase without a rule: the
machine does not fault, and it refuses nothing but a frame that `RLEN` cannot answer, presented to an idle engine (U6; the
model's refusal, log entry 11). -/
def Obligations.InvariantRulesOutFaults : Prop :=
  ∀ s : State, SeqInv Config.sbox s →
    (∀ f, step s ≠ .fault f) ∧
    (∀ r, step s = .refused r →
      s.phase = .idle ∧ r = .responseTooLong ∧
        ∃ h c rest, splitFrame s.rx = some (h, c, rest) ∧ answerTooLong c = true)

/-! ### The commands -/

/-- R127: BENC completes for every 32-byte key and every block, answers `BlockEnc(key, b)`, and leaves the chaining
register, the stream offset and the interfaces alone (R23). What the other registers hold afterwards is not said (R37), and
that `GAMMA` and `POS` still hold it once the command has ended is the model's choice (log entry 8). -/
def Obligations.BencAnswersTheEncryptedBlock : Prop :=
  ∀ (key : Bytes) (b : Block) (s : State), s.phase = .idle → key.length = 32 →
    ∃ c t, blockEnc Config.sbox key b = .ok c ∧ exec (.benc key (blockBytes b)) s = .next t ∧
      t = { s with k := t.k, n1 := t.n1, n2 := t.n2, ks := t.ks, rnd := t.rnd,
                   cmd := t.cmd, dir := t.dir,
                   resp := t.resp, tx := s.tx ++ [⟨.ok, blockBytes c⟩] }

/-- R128: BDEC completes for every 32-byte key and every block, answers `BlockDec(key, b)`, and leaves the chaining
register, the stream offset and the interfaces alone (R23). What the other registers hold afterwards is not said (R37), and
that `GAMMA` and `POS` still hold it once the command has ended is the model's choice (log entry 8). -/
def Obligations.BdecAnswersTheDecryptedBlock : Prop :=
  ∀ (key : Bytes) (b : Block) (s : State), s.phase = .idle → key.length = 32 →
    ∃ c t, blockDec Config.sbox key b = .ok c ∧ exec (.bdec key (blockBytes b)) s = .next t ∧
      t = { s with k := t.k, n1 := t.n1, n2 := t.n2, ks := t.ks, rnd := t.rnd,
                   cmd := t.cmd, dir := t.dir,
                   resp := t.resp, tx := s.tx ++ [⟨.ok, blockBytes c⟩] }

/-- R148: SENC with an explicit IV completes for every plaintext, answers `CfbEnc(key, iv, p)`, draws nothing, and leaves
the interfaces alone. -/
def Obligations.SencAnswersTheEnvelope : Prop :=
  ∀ (key p : Bytes) (iv : Block) (s : State), s.phase = .idle → key.length = 32 →
    ∃ e t, cfbEnc Config.sbox key iv p = .ok e ∧ exec (.senc true key (blockBytes iv) p) s = .next t ∧
      t = { s with k := t.k, n1 := t.n1, n2 := t.n2, gamma := t.gamma, ks := t.ks, rnd := t.rnd, pos := t.pos,
                   cmd := t.cmd, dir := t.dir, resp := t.resp, tx := s.tx ++ [⟨.ok, e⟩] }

/-- R148, R32: SENC without an IV completes for every plaintext and every answer `d` of the entropy source, uses that one
answer up, and its response is `CfbEnc(key, d, p)`. -/
def Obligations.SencWithoutIvUsesOneDraw : Prop :=
  ∀ (key p : Bytes) (d : Block) (ds : List Block) (s : State),
    s.phase = .idle → key.length = 32 → s.draws = d :: ds →
    ∃ e t, cfbEnc Config.sbox key d p = .ok e ∧ exec (.senc false key [] p) s = .next t ∧
      t = { s with k := t.k, n1 := t.n1, n2 := t.n2, gamma := t.gamma, ks := t.ks, rnd := t.rnd, pos := t.pos,
                   cmd := t.cmd, dir := t.dir, resp := t.resp, draws := ds, tx := s.tx ++ [⟨.ok, e⟩] }

/-- R177, U4: SENC without an IV and without an answer leaves the engine waiting in IVSEL, with no response, and the
machine's further steps change nothing; that waiting is a step that changes nothing is the model's choice (log entry
10). -/
def Obligations.SencWithoutDrawWaits : Prop :=
  ∀ (key p : Bytes) (s : State), s.phase = .idle → s.resetIn = false → key.length = 32 → s.draws = [] →
    ∃ t, exec (.senc false key [] p) s = .next t ∧ AwaitsDraw t ∧ t.tx = s.tx ∧ t.rx = s.rx ∧ step t = .next t

/-- R149: SDEC completes for every envelope of at least 8 bytes, answers `CfbDec(key, env)`, draws nothing, and leaves the
interfaces alone. -/
def Obligations.SdecAnswersThePlaintext : Prop :=
  ∀ (key env : Bytes) (s : State), s.phase = .idle → key.length = 32 → 8 ≤ env.length →
    ∃ p t, cfbDec Config.sbox key env = .ok p ∧ exec (.sdec key env) s = .next t ∧
      t = { s with k := t.k, n1 := t.n1, n2 := t.n2, gamma := t.gamma, ks := t.ks, rnd := t.rnd, pos := t.pos,
                   cmd := t.cmd, dir := t.dir, resp := t.resp, tx := s.tx ++ [⟨.ok, p⟩] }

/-- R161, R163, R164, R165, R169, R170: a command that breaks a frame constraint, else the key length, else the IV length,
has no effect but `CMD`, `PHASE` back at `IDLE`, and its error response. -/
def Obligations.FaultingCommandsHaveNoOtherEffect : Prop :=
  ∀ (i : Instr) (s : State), s.phase = .idle →
    let after := fun f : CmdFault => { s with cmd := i.toCmd, tx := s.tx ++ [⟨.fault f, []⟩] }
    (BreaksFrame i.toCmd → exec i s = .next (after .badFrame)) ∧
    (¬ BreaksFrame i.toCmd → i.key.length ≠ 32 → exec i s = .next (after .invalidKeyLength)) ∧
    (¬ BreaksFrame i.toCmd → i.key.length = 32 → BreaksIv i.toCmd → exec i s = .next (after .invalidIVLength))

/-- R36, R38, R190: the response to a command does not depend on what the registers hold before it. -/
def Obligations.ResponsesDoNotDependOnRegisters : Prop :=
  ∀ (i : Instr) (s s' : State), s.phase = .idle → s'.phase = .idle → s'.tx = s.tx → s'.draws = s.draws →
    ∃ t t', exec i s = .next t ∧ exec i s' = .next t' ∧ t'.tx = t.tx ∧ t'.phase = t.phase ∧ t'.draws = t.draws

/-- R171: the command after a faulting one answers as if the faulting one had never been presented. -/
def Obligations.FaultsLeaveNothingBehind : Prop :=
  ∀ (i j : Instr) (s t : State), s.phase = .idle → (∃ f, checkCmd i.toCmd = some f) → exec i s = .next t →
    ∃ u v new, exec j s = .next u ∧ exec j t = .next v ∧ u.tx = s.tx ++ new ∧ v.tx = t.tx ++ new ∧
      u.phase = v.phase ∧ u.draws = v.draws

/-- R34, R194, D19: a command presented to a busy engine waits: the engine takes the next step of the command in
progress, whatever the one that waits. That `exec` there is that step is the model's choice (log entry 9). -/
def Obligations.BusyEngineMakesACommandWait : Prop :=
  ∀ (i : Instr) (s : State), s.phase ≠ .idle → exec i s = seqStep Config.sbox s

/-! ### The machine's step -/

/-- A step of an idle engine runs the instruction its decoder reads at the head of the bytes presented, those bytes
consumed. That one step runs the whole command, where R34's ACCEPT stops at CHECK, is the model's choice (log entry 7); R10
allows it: "A model may implement either". `answerTooLong` is the refusal of U6 (log entry 11), in its own statement. -/
def Obligations.StepRunsTheDecodedInstruction : Prop :=
  ∀ (s : State) (i : Instr) (rest : Bytes),
    s.resetIn = false → s.phase = .idle → decode s.rx = .ok (i, rest) → answerTooLong i.toCmd = false →
    step s = exec i { s with rx := rest }

/-- R78, R82, R170: a whole frame whose word 0 matches no row is answered `BadFrame`, its strings consumed; no register but
`CMD` changes. That one step does ACCEPT and CHECK together is the model's choice (log entry 7; R10 allows it), and that the
answer is a next state, where R164 speaks of a refusal in a model, is the model's reading of R79 and R82 (log entry 12). -/
def Obligations.StepAnswersIllegalFramesBadFrame : Prop :=
  ∀ (s : State) (h : Header) (c : Cmd) (rest : Bytes),
    s.resetIn = false → s.phase = .idle → splitFrame s.rx = some (h, c, rest) → rowOf h.w0 = none →
    step s = .next { s with rx := rest, cmd := c, tx := s.tx ++ [⟨.fault .badFrame, []⟩] }

/-- R75: an incomplete frame gives the engine no step; as a step that changes nothing, by the model's choice (log entry
10). -/
def Obligations.StepWaitsForAWholeFrame : Prop :=
  ∀ s : State, s.resetIn = false → s.phase = .idle → splitFrame s.rx = none → step s = .next s

/-- R81, U6: a SENC frame whose response does not fit `RLEN` is refused by name, whichever way the frame is accepted (log
entry 11). -/
def Obligations.StepRefusesWhatRlenCannotAnswer : Prop :=
  ∀ (s : State) (key iv p rest : Bytes) (ivp : Bool),
    s.resetIn = false → s.phase = .idle → decode s.rx = .ok (.senc ivp key iv p, rest) →
    checkCmd (Instr.senc ivp key iv p).toCmd = none → 4294967296 ≤ 8 + p.length →
    step s = .refused .responseTooLong ∧ ∀ S, seqStep S s = .refused .responseTooLong

/-- R33: a step of a busy engine is the next step of its sequencer (log entry 7: a step of an idle one is a whole
command). -/
def Obligations.StepContinuesTheCommandInProgress : Prop :=
  ∀ s : State, s.resetIn = false → s.phase ≠ .idle → step s = seqStep Config.sbox s

/-- R190, R191: in every phase, inside a command too, reset makes the engine idle with no response pending and abandons
a command in progress without one, in the fine-grained machine and in `step` alike; with reset released the fine-grained
machine takes the sequencer's step. Three things are the model's choice: that reset is a bit which the step acts on and
clears (log entry 6), and that what the host has presented and what the entropy source has ready stay (log entry 5). -/
def Obligations.ResetAbandonsTheCommand : Prop :=
  (State.reset.phase = .idle ∧ State.reset.tx = []) ∧
  ∀ (S : SBox) (s : State),
    (s.resetIn = true →
      ∃ t, engineStep S s = .next t ∧ step s = .next t ∧ t.phase = .idle ∧ t.tx = [] ∧ t.resetIn = false ∧
        t.rx = s.rx ∧ t.draws = s.draws) ∧
    (s.resetIn = false → engineStep S s = seqStep S s)

/-- R10: one step of the machine on a whole frame is what some number of sequencer steps, at most `38 + 36 ceil(DLEN / 8)`,
comes to: the two levels agree. -/
def Obligations.StepAgreesWithTheSequencer : Prop :=
  ∀ (s : State) (h : Header) (c : Cmd) (rest : Bytes),
    s.resetIn = false → s.phase = .idle → splitFrame s.rx = some (h, c, rest) →
    ∃ n, 0 < n ∧ n ≤ 38 + 36 * ((c.data.length + 7) / 8) ∧ seqRun Config.sbox n s = step s

/-- R58, R178, R193: under every schedule of engine steps, host acts, answers of the entropy source and resets, an engine
instance does what its own events alone make of it; and if every instance alone gets through its own events, so does the
platform. Which instance gets which draw is in the schedule (log entry 15), and a run that an instance's refusal or fault
ends has no last platform (log entry 21). -/
def Obligations.EnginesAreIsolated : Prop :=
  ∀ (S : SBox) (sched : List (Nat × Event)) (P : Platform),
    (∀ Q, platformRun S sched P = .next Q →
      Q.engines.length = P.engines.length ∧
      ∀ (j : Nat) (e : State), P.engines[j]? = some e →
        ∃ e', engineRun S (ownEvents j sched) e = .next e' ∧ Q.engines[j]? = some e') ∧
    ((∀ (j : Nat) (e : State), P.engines[j]? = some e → ∃ e', engineRun S (ownEvents j sched) e = .next e') →
      ∃ Q, platformRun S sched P = .next Q)
end

