-- ==== Sys2Proof/Laws/Bytes.lean ====
section
/-! SUPPORT. The byte-order helpers are inverse to one another, blocks and 8-byte strings are the same thing, and
a stream's blocks are its first 8 bytes and then the blocks of the rest. -/

namespace Sys2Proof.Machine

theorem le32_getLsbD (a b c d : Byte) (i : Nat) :
    (le32 a b c d).getLsbD i =
      if i < 8 then a.getLsbD i else if i < 16 then b.getLsbD (i - 8)
      else if i < 24 then c.getLsbD (i - 16) else d.getLsbD (i - 24) := by
  show BitVec.getLsbD (w := 8 + 8 + 8 + 8) (d ++ c ++ b ++ a) i = _
  rw [BitVec.getLsbD_append, BitVec.getLsbD_append, BitVec.getLsbD_append]
  repeat' split
  all_goals first
    | rfl
    | omega

theorem byteOf_getLsbD (w : Word) (j i : Nat) :
    (byteOf w j).getLsbD i = (decide (i < 8) && w.getLsbD (8 * j + i)) := by
  simp [byteOf]

@[simp] theorem byteOf_le32_zero (a b c d : Byte) : byteOf (le32 a b c d) 0 = a := by
  apply BitVec.eq_of_getLsbD_eq
  intro i hi
  rw [byteOf_getLsbD, le32_getLsbD]
  simp [hi]

@[simp] theorem byteOf_le32_one (a b c d : Byte) : byteOf (le32 a b c d) 1 = b := by
  apply BitVec.eq_of_getLsbD_eq
  intro i hi
  rw [byteOf_getLsbD, le32_getLsbD]
  have h : 8 + i < 16 := by omega
  simp [hi, h]

@[simp] theorem byteOf_le32_two (a b c d : Byte) : byteOf (le32 a b c d) 2 = c := by
  apply BitVec.eq_of_getLsbD_eq
  intro i hi
  rw [byteOf_getLsbD, le32_getLsbD]
  have h : 16 + i < 24 := by omega
  have h' : ¬ 16 + i < 16 := by omega
  have h'' : ¬ 16 + i < 8 := by omega
  simp [hi, h, h', h'']

@[simp] theorem byteOf_le32_three (a b c d : Byte) : byteOf (le32 a b c d) 3 = d := by
  apply BitVec.eq_of_getLsbD_eq
  intro i hi
  rw [byteOf_getLsbD, le32_getLsbD]
  have h : ¬ 24 + i < 24 := by omega
  have h' : ¬ 24 + i < 16 := by omega
  have h'' : ¬ 24 + i < 8 := by omega
  simp [hi, h, h', h'']

@[simp] theorem le32_byteOf (w : Word) : le32 (byteOf w 0) (byteOf w 1) (byteOf w 2) (byteOf w 3) = w := by
  apply BitVec.eq_of_getLsbD_eq
  intro i hi
  simp only [le32_getLsbD, byteOf_getLsbD]
  repeat' split
  all_goals
    first
    | (have h : i - 24 < 8 := by omega
       have e : 8 * 3 + (i - 24) = i := by omega
       simp [h, e])
    | (have h : i - 16 < 8 := by omega
       have e : 8 * 2 + (i - 16) = i := by omega
       simp [h, e])
    | (have h : i - 8 < 8 := by omega
       have e : 8 * 1 + (i - 8) = i := by omega
       simp [h, e])
    | simp [*]

@[simp] theorem blockBytes_length (b : Block) : (blockBytes b).length = 8 := rfl
@[simp] theorem bytesLe32_length (w : Word) : (bytesLe32 w).length = 4 := rfl
@[simp] theorem blockOf_blockBytes (b : Block) : blockOf (blockBytes b) = b := rfl
/-- Only the first 8 bytes of a string count. -/
@[simp] theorem blockOf_blockBytes_append (b : Block) (t : Bytes) : blockOf (blockBytes b ++ t) = b := rfl

theorem eight_bytes {bs : Bytes} (h : bs.length = 8) :
    ∃ b, bs = blockBytes b := by
  match bs, h with
  | [a0, a1, a2, a3, a4, a5, a6, a7], _ => exact ⟨⟨a0, a1, a2, a3, a4, a5, a6, a7⟩, rfl⟩

theorem blockBytes_blockOf {bs : Bytes} (h : bs.length = 8) : blockBytes (blockOf bs) = bs := by
  obtain ⟨b, rfl⟩ := eight_bytes h
  rfl

theorem blockOf_take (bs : Bytes) : blockOf (bs.take 8) = blockOf bs := by
  simp [blockOf, List.getD_eq_getElem?_getD]

@[simp] theorem firstHalf_packHalves (u v : Word) : firstHalf (packHalves u v) = u := le32_byteOf u
@[simp] theorem secondHalf_packHalves (u v : Word) : secondHalf (packHalves u v) = v := le32_byteOf v
@[simp] theorem packHalves_halves (b : Block) : packHalves (firstHalf b) (secondHalf b) = b := by
  simp [packHalves, firstHalf, secondHalf]

@[simp] theorem xorBytes_length (a b : Bytes) : (xorBytes a b).length = min a.length b.length := by
  simp [xorBytes]

/-- Masking twice with bytes that reach as far restores the string. -/
theorem xorBytes_cancel (a b : Bytes) (h : a.length ≤ b.length) : xorBytes (xorBytes a b) b = a := by
  induction a generalizing b with
  | nil => simp [xorBytes]
  | cons x xs ih =>
      cases b with
      | nil => simp at h
      | cons y ys =>
          simp only [xorBytes, List.zipWith_cons_cons, List.cons.injEq]
          refine ⟨by simp, ?_⟩
          exact ih ys (by simpa using h)

@[simp] theorem streamBlocks_nil : streamBlocks [] = [] := rfl

theorem streamBlocks_of_ne_nil {s : Bytes} (h : s ≠ []) :
    streamBlocks s = s.take 8 :: streamBlocks (s.drop 8) := by
  have hpos : 0 < s.length := List.length_pos_iff.mpr h
  have hc : blockCount s.length = blockCount (s.drop 8).length + 1 := by
    simp only [blockCount, List.length_drop]
    omega
  unfold streamBlocks
  rw [hc, List.range_succ_eq_map]
  simp [List.drop_drop, Function.comp_def, Nat.mul_add, Nat.add_comm]

@[simp] theorem streamBlocks_length (s : Bytes) : (streamBlocks s).length = blockCount s.length := by
  simp [streamBlocks]
end Sys2Proof.Machine
end

