-- ==== Sys2Proof/Laws/State.lean ====
section
/-! SUPPORT. One lemma per field per update of the state, true by definition. -/

namespace Sys2Proof.Machine

@[simp] theorem accept_k (c : Cmd) (s : State) : (accept c s).k = s.k := rfl
@[simp] theorem accept_n1 (c : Cmd) (s : State) : (accept c s).n1 = s.n1 := rfl
@[simp] theorem accept_n2 (c : Cmd) (s : State) : (accept c s).n2 = s.n2 := rfl
@[simp] theorem accept_gamma (c : Cmd) (s : State) : (accept c s).gamma = s.gamma := rfl
@[simp] theorem accept_ks (c : Cmd) (s : State) : (accept c s).ks = s.ks := rfl
@[simp] theorem accept_rnd (c : Cmd) (s : State) : (accept c s).rnd = s.rnd := rfl
@[simp] theorem accept_pos (c : Cmd) (s : State) : (accept c s).pos = s.pos := rfl
@[simp] theorem accept_phase (c : Cmd) (s : State) : (accept c s).phase = .check := rfl
@[simp] theorem accept_cmd (c : Cmd) (s : State) : (accept c s).cmd = c := rfl
@[simp] theorem accept_dir (c : Cmd) (s : State) : (accept c s).dir = s.dir := rfl
@[simp] theorem accept_resp (c : Cmd) (s : State) : (accept c s).resp = s.resp := rfl
@[simp] theorem accept_rx (c : Cmd) (s : State) : (accept c s).rx = s.rx := rfl
@[simp] theorem accept_tx (c : Cmd) (s : State) : (accept c s).tx = s.tx := rfl
@[simp] theorem accept_draws (c : Cmd) (s : State) : (accept c s).draws = s.draws := rfl
@[simp] theorem accept_resetIn (c : Cmd) (s : State) : (accept c s).resetIn = s.resetIn := rfl

@[simp] theorem deliver_k (r : Response) (s : State) : (deliver r s).k = s.k := rfl
@[simp] theorem deliver_n1 (r : Response) (s : State) : (deliver r s).n1 = s.n1 := rfl
@[simp] theorem deliver_n2 (r : Response) (s : State) : (deliver r s).n2 = s.n2 := rfl
@[simp] theorem deliver_gamma (r : Response) (s : State) : (deliver r s).gamma = s.gamma := rfl
@[simp] theorem deliver_ks (r : Response) (s : State) : (deliver r s).ks = s.ks := rfl
@[simp] theorem deliver_rnd (r : Response) (s : State) : (deliver r s).rnd = s.rnd := rfl
@[simp] theorem deliver_pos (r : Response) (s : State) : (deliver r s).pos = s.pos := rfl
@[simp] theorem deliver_phase (r : Response) (s : State) : (deliver r s).phase = s.phase := rfl
@[simp] theorem deliver_cmd (r : Response) (s : State) : (deliver r s).cmd = s.cmd := rfl
@[simp] theorem deliver_dir (r : Response) (s : State) : (deliver r s).dir = s.dir := rfl
@[simp] theorem deliver_resp (r : Response) (s : State) : (deliver r s).resp = s.resp := rfl
@[simp] theorem deliver_rx (r : Response) (s : State) : (deliver r s).rx = s.rx := rfl
@[simp] theorem deliver_tx (r : Response) (s : State) : (deliver r s).tx = s.tx ++ [r] := rfl
@[simp] theorem deliver_draws (r : Response) (s : State) : (deliver r s).draws = s.draws := rfl
@[simp] theorem deliver_resetIn (r : Response) (s : State) : (deliver r s).resetIn = s.resetIn := rfl

@[simp] theorem raiseFault_k (f : CmdFault) (s : State) : (raiseFault f s).k = s.k := rfl
@[simp] theorem raiseFault_n1 (f : CmdFault) (s : State) : (raiseFault f s).n1 = s.n1 := rfl
@[simp] theorem raiseFault_n2 (f : CmdFault) (s : State) : (raiseFault f s).n2 = s.n2 := rfl
@[simp] theorem raiseFault_gamma (f : CmdFault) (s : State) : (raiseFault f s).gamma = s.gamma := rfl
@[simp] theorem raiseFault_ks (f : CmdFault) (s : State) : (raiseFault f s).ks = s.ks := rfl
@[simp] theorem raiseFault_rnd (f : CmdFault) (s : State) : (raiseFault f s).rnd = s.rnd := rfl
@[simp] theorem raiseFault_pos (f : CmdFault) (s : State) : (raiseFault f s).pos = s.pos := rfl
@[simp] theorem raiseFault_phase (f : CmdFault) (s : State) : (raiseFault f s).phase = .idle := rfl
@[simp] theorem raiseFault_cmd (f : CmdFault) (s : State) : (raiseFault f s).cmd = s.cmd := rfl
@[simp] theorem raiseFault_dir (f : CmdFault) (s : State) : (raiseFault f s).dir = s.dir := rfl
@[simp] theorem raiseFault_resp (f : CmdFault) (s : State) : (raiseFault f s).resp = s.resp := rfl
@[simp] theorem raiseFault_rx (f : CmdFault) (s : State) : (raiseFault f s).rx = s.rx := rfl
@[simp] theorem raiseFault_tx (f : CmdFault) (s : State) : (raiseFault f s).tx = s.tx ++ [⟨.fault f, []⟩] := rfl
@[simp] theorem raiseFault_draws (f : CmdFault) (s : State) : (raiseFault f s).draws = s.draws := rfl
@[simp] theorem raiseFault_resetIn (f : CmdFault) (s : State) : (raiseFault f s).resetIn = s.resetIn := rfl

@[simp] theorem finish_k (s : State) : (finish s).k = s.k := rfl
@[simp] theorem finish_n1 (s : State) : (finish s).n1 = s.n1 := rfl
@[simp] theorem finish_n2 (s : State) : (finish s).n2 = s.n2 := rfl
@[simp] theorem finish_gamma (s : State) : (finish s).gamma = s.gamma := rfl
@[simp] theorem finish_ks (s : State) : (finish s).ks = s.ks := rfl
@[simp] theorem finish_rnd (s : State) : (finish s).rnd = s.rnd := rfl
@[simp] theorem finish_pos (s : State) : (finish s).pos = s.pos := rfl
@[simp] theorem finish_phase (s : State) : (finish s).phase = .idle := rfl
@[simp] theorem finish_cmd (s : State) : (finish s).cmd = s.cmd := rfl
@[simp] theorem finish_dir (s : State) : (finish s).dir = s.dir := rfl
@[simp] theorem finish_resp (s : State) : (finish s).resp = s.resp := rfl
@[simp] theorem finish_rx (s : State) : (finish s).rx = s.rx := rfl
@[simp] theorem finish_tx (s : State) : (finish s).tx = s.tx ++ [⟨.ok, s.resp⟩] := rfl
@[simp] theorem finish_draws (s : State) : (finish s).draws = s.draws := rfl
@[simp] theorem finish_resetIn (s : State) : (finish s).resetIn = s.resetIn := rfl

@[simp] theorem appendResp_k (v : Bytes) (s : State) : (appendResp v s).k = s.k := rfl
@[simp] theorem appendResp_n1 (v : Bytes) (s : State) : (appendResp v s).n1 = s.n1 := rfl
@[simp] theorem appendResp_n2 (v : Bytes) (s : State) : (appendResp v s).n2 = s.n2 := rfl
@[simp] theorem appendResp_gamma (v : Bytes) (s : State) : (appendResp v s).gamma = s.gamma := rfl
@[simp] theorem appendResp_ks (v : Bytes) (s : State) : (appendResp v s).ks = s.ks := rfl
@[simp] theorem appendResp_rnd (v : Bytes) (s : State) : (appendResp v s).rnd = s.rnd := rfl
@[simp] theorem appendResp_pos (v : Bytes) (s : State) : (appendResp v s).pos = s.pos := rfl
@[simp] theorem appendResp_phase (v : Bytes) (s : State) : (appendResp v s).phase = s.phase := rfl
@[simp] theorem appendResp_cmd (v : Bytes) (s : State) : (appendResp v s).cmd = s.cmd := rfl
@[simp] theorem appendResp_dir (v : Bytes) (s : State) : (appendResp v s).dir = s.dir := rfl
@[simp] theorem appendResp_resp (v : Bytes) (s : State) : (appendResp v s).resp = s.resp ++ v := rfl
@[simp] theorem appendResp_rx (v : Bytes) (s : State) : (appendResp v s).rx = s.rx := rfl
@[simp] theorem appendResp_tx (v : Bytes) (s : State) : (appendResp v s).tx = s.tx := rfl
@[simp] theorem appendResp_draws (v : Bytes) (s : State) : (appendResp v s).draws = s.draws := rfl
@[simp] theorem appendResp_resetIn (v : Bytes) (s : State) : (appendResp v s).resetIn = s.resetIn := rfl

@[simp] theorem startEncrypt_k (iv : Block) (s : State) : (startEncrypt iv s).k = s.k := rfl
@[simp] theorem startEncrypt_n1 (iv : Block) (s : State) : (startEncrypt iv s).n1 = s.n1 := rfl
@[simp] theorem startEncrypt_n2 (iv : Block) (s : State) : (startEncrypt iv s).n2 = s.n2 := rfl
@[simp] theorem startEncrypt_gamma (iv : Block) (s : State) : (startEncrypt iv s).gamma = iv := rfl
@[simp] theorem startEncrypt_ks (iv : Block) (s : State) : (startEncrypt iv s).ks = s.ks := rfl
@[simp] theorem startEncrypt_rnd (iv : Block) (s : State) : (startEncrypt iv s).rnd = s.rnd := rfl
@[simp] theorem startEncrypt_pos (iv : Block) (s : State) : (startEncrypt iv s).pos = 0 := rfl
@[simp] theorem startEncrypt_phase (iv : Block) (s : State) : (startEncrypt iv s).phase = .next := rfl
@[simp] theorem startEncrypt_cmd (iv : Block) (s : State) : (startEncrypt iv s).cmd = s.cmd := rfl
@[simp] theorem startEncrypt_dir (iv : Block) (s : State) : (startEncrypt iv s).dir = s.dir := rfl
@[simp] theorem startEncrypt_resp (iv : Block) (s : State) : (startEncrypt iv s).resp = s.resp ++ blockBytes iv := rfl
@[simp] theorem startEncrypt_rx (iv : Block) (s : State) : (startEncrypt iv s).rx = s.rx := rfl
@[simp] theorem startEncrypt_tx (iv : Block) (s : State) : (startEncrypt iv s).tx = s.tx := rfl
@[simp] theorem startEncrypt_draws (iv : Block) (s : State) : (startEncrypt iv s).draws = s.draws := rfl
@[simp] theorem startEncrypt_resetIn (iv : Block) (s : State) : (startEncrypt iv s).resetIn = s.resetIn := rfl

@[simp] theorem startDecrypt_k (iv : Block) (s : State) : (startDecrypt iv s).k = s.k := rfl
@[simp] theorem startDecrypt_n1 (iv : Block) (s : State) : (startDecrypt iv s).n1 = s.n1 := rfl
@[simp] theorem startDecrypt_n2 (iv : Block) (s : State) : (startDecrypt iv s).n2 = s.n2 := rfl
@[simp] theorem startDecrypt_gamma (iv : Block) (s : State) : (startDecrypt iv s).gamma = iv := rfl
@[simp] theorem startDecrypt_ks (iv : Block) (s : State) : (startDecrypt iv s).ks = s.ks := rfl
@[simp] theorem startDecrypt_rnd (iv : Block) (s : State) : (startDecrypt iv s).rnd = s.rnd := rfl
@[simp] theorem startDecrypt_pos (iv : Block) (s : State) : (startDecrypt iv s).pos = 0 := rfl
@[simp] theorem startDecrypt_phase (iv : Block) (s : State) : (startDecrypt iv s).phase = .next := rfl
@[simp] theorem startDecrypt_cmd (iv : Block) (s : State) : (startDecrypt iv s).cmd = s.cmd := rfl
@[simp] theorem startDecrypt_dir (iv : Block) (s : State) : (startDecrypt iv s).dir = s.dir := rfl
@[simp] theorem startDecrypt_resp (iv : Block) (s : State) : (startDecrypt iv s).resp = s.resp := rfl
@[simp] theorem startDecrypt_rx (iv : Block) (s : State) : (startDecrypt iv s).rx = s.rx := rfl
@[simp] theorem startDecrypt_tx (iv : Block) (s : State) : (startDecrypt iv s).tx = s.tx := rfl
@[simp] theorem startDecrypt_draws (iv : Block) (s : State) : (startDecrypt iv s).draws = s.draws := rfl
@[simp] theorem startDecrypt_resetIn (iv : Block) (s : State) : (startDecrypt iv s).resetIn = s.resetIn := rfl

@[simp] theorem loadPair_k (b : Block) (s : State) : (loadPair b s).k = s.k := rfl
@[simp] theorem loadPair_n1 (b : Block) (s : State) : (loadPair b s).n1 = firstHalf b := rfl
@[simp] theorem loadPair_n2 (b : Block) (s : State) : (loadPair b s).n2 = secondHalf b := rfl
@[simp] theorem loadPair_gamma (b : Block) (s : State) : (loadPair b s).gamma = s.gamma := rfl
@[simp] theorem loadPair_ks (b : Block) (s : State) : (loadPair b s).ks = s.ks := rfl
@[simp] theorem loadPair_rnd (b : Block) (s : State) : (loadPair b s).rnd = 0 := rfl
@[simp] theorem loadPair_pos (b : Block) (s : State) : (loadPair b s).pos = s.pos := rfl
@[simp] theorem loadPair_phase (b : Block) (s : State) : (loadPair b s).phase = .round := rfl
@[simp] theorem loadPair_cmd (b : Block) (s : State) : (loadPair b s).cmd = s.cmd := rfl
@[simp] theorem loadPair_dir (b : Block) (s : State) : (loadPair b s).dir = s.dir := rfl
@[simp] theorem loadPair_resp (b : Block) (s : State) : (loadPair b s).resp = s.resp := rfl
@[simp] theorem loadPair_rx (b : Block) (s : State) : (loadPair b s).rx = s.rx := rfl
@[simp] theorem loadPair_tx (b : Block) (s : State) : (loadPair b s).tx = s.tx := rfl
@[simp] theorem loadPair_draws (b : Block) (s : State) : (loadPair b s).draws = s.draws := rfl
@[simp] theorem loadPair_resetIn (b : Block) (s : State) : (loadPair b s).resetIn = s.resetIn := rfl

@[simp] theorem hostPresent_k (bs : Bytes) (s : State) : (hostPresent bs s).k = s.k := rfl
@[simp] theorem hostPresent_n1 (bs : Bytes) (s : State) : (hostPresent bs s).n1 = s.n1 := rfl
@[simp] theorem hostPresent_n2 (bs : Bytes) (s : State) : (hostPresent bs s).n2 = s.n2 := rfl
@[simp] theorem hostPresent_gamma (bs : Bytes) (s : State) : (hostPresent bs s).gamma = s.gamma := rfl
@[simp] theorem hostPresent_ks (bs : Bytes) (s : State) : (hostPresent bs s).ks = s.ks := rfl
@[simp] theorem hostPresent_rnd (bs : Bytes) (s : State) : (hostPresent bs s).rnd = s.rnd := rfl
@[simp] theorem hostPresent_pos (bs : Bytes) (s : State) : (hostPresent bs s).pos = s.pos := rfl
@[simp] theorem hostPresent_phase (bs : Bytes) (s : State) : (hostPresent bs s).phase = s.phase := rfl
@[simp] theorem hostPresent_cmd (bs : Bytes) (s : State) : (hostPresent bs s).cmd = s.cmd := rfl
@[simp] theorem hostPresent_dir (bs : Bytes) (s : State) : (hostPresent bs s).dir = s.dir := rfl
@[simp] theorem hostPresent_resp (bs : Bytes) (s : State) : (hostPresent bs s).resp = s.resp := rfl
@[simp] theorem hostPresent_rx (bs : Bytes) (s : State) : (hostPresent bs s).rx = s.rx ++ bs := rfl
@[simp] theorem hostPresent_tx (bs : Bytes) (s : State) : (hostPresent bs s).tx = s.tx := rfl
@[simp] theorem hostPresent_draws (bs : Bytes) (s : State) : (hostPresent bs s).draws = s.draws := rfl
@[simp] theorem hostPresent_resetIn (bs : Bytes) (s : State) : (hostPresent bs s).resetIn = s.resetIn := rfl

@[simp] theorem entropyAnswer_k (b : Block) (s : State) : (entropyAnswer b s).k = s.k := rfl
@[simp] theorem entropyAnswer_n1 (b : Block) (s : State) : (entropyAnswer b s).n1 = s.n1 := rfl
@[simp] theorem entropyAnswer_n2 (b : Block) (s : State) : (entropyAnswer b s).n2 = s.n2 := rfl
@[simp] theorem entropyAnswer_gamma (b : Block) (s : State) : (entropyAnswer b s).gamma = s.gamma := rfl
@[simp] theorem entropyAnswer_ks (b : Block) (s : State) : (entropyAnswer b s).ks = s.ks := rfl
@[simp] theorem entropyAnswer_rnd (b : Block) (s : State) : (entropyAnswer b s).rnd = s.rnd := rfl
@[simp] theorem entropyAnswer_pos (b : Block) (s : State) : (entropyAnswer b s).pos = s.pos := rfl
@[simp] theorem entropyAnswer_phase (b : Block) (s : State) : (entropyAnswer b s).phase = s.phase := rfl
@[simp] theorem entropyAnswer_cmd (b : Block) (s : State) : (entropyAnswer b s).cmd = s.cmd := rfl
@[simp] theorem entropyAnswer_dir (b : Block) (s : State) : (entropyAnswer b s).dir = s.dir := rfl
@[simp] theorem entropyAnswer_resp (b : Block) (s : State) : (entropyAnswer b s).resp = s.resp := rfl
@[simp] theorem entropyAnswer_rx (b : Block) (s : State) : (entropyAnswer b s).rx = s.rx := rfl
@[simp] theorem entropyAnswer_tx (b : Block) (s : State) : (entropyAnswer b s).tx = s.tx := rfl
@[simp] theorem entropyAnswer_draws (b : Block) (s : State) : (entropyAnswer b s).draws = s.draws ++ [b] := rfl
@[simp] theorem entropyAnswer_resetIn (b : Block) (s : State) : (entropyAnswer b s).resetIn = s.resetIn := rfl

@[simp] theorem assertReset_k (s : State) : (assertReset s).k = s.k := rfl
@[simp] theorem assertReset_n1 (s : State) : (assertReset s).n1 = s.n1 := rfl
@[simp] theorem assertReset_n2 (s : State) : (assertReset s).n2 = s.n2 := rfl
@[simp] theorem assertReset_gamma (s : State) : (assertReset s).gamma = s.gamma := rfl
@[simp] theorem assertReset_ks (s : State) : (assertReset s).ks = s.ks := rfl
@[simp] theorem assertReset_rnd (s : State) : (assertReset s).rnd = s.rnd := rfl
@[simp] theorem assertReset_pos (s : State) : (assertReset s).pos = s.pos := rfl
@[simp] theorem assertReset_phase (s : State) : (assertReset s).phase = s.phase := rfl
@[simp] theorem assertReset_cmd (s : State) : (assertReset s).cmd = s.cmd := rfl
@[simp] theorem assertReset_dir (s : State) : (assertReset s).dir = s.dir := rfl
@[simp] theorem assertReset_resp (s : State) : (assertReset s).resp = s.resp := rfl
@[simp] theorem assertReset_rx (s : State) : (assertReset s).rx = s.rx := rfl
@[simp] theorem assertReset_tx (s : State) : (assertReset s).tx = s.tx := rfl
@[simp] theorem assertReset_draws (s : State) : (assertReset s).draws = s.draws := rfl
@[simp] theorem assertReset_resetIn (s : State) : (assertReset s).resetIn = true := rfl

@[simp] theorem placeFrame_k (bs : Bytes) (s : State) : (placeFrame bs s).k = s.k := rfl
@[simp] theorem placeFrame_n1 (bs : Bytes) (s : State) : (placeFrame bs s).n1 = s.n1 := rfl
@[simp] theorem placeFrame_n2 (bs : Bytes) (s : State) : (placeFrame bs s).n2 = s.n2 := rfl
@[simp] theorem placeFrame_gamma (bs : Bytes) (s : State) : (placeFrame bs s).gamma = s.gamma := rfl
@[simp] theorem placeFrame_ks (bs : Bytes) (s : State) : (placeFrame bs s).ks = s.ks := rfl
@[simp] theorem placeFrame_rnd (bs : Bytes) (s : State) : (placeFrame bs s).rnd = s.rnd := rfl
@[simp] theorem placeFrame_pos (bs : Bytes) (s : State) : (placeFrame bs s).pos = s.pos := rfl
@[simp] theorem placeFrame_phase (bs : Bytes) (s : State) : (placeFrame bs s).phase = .idle := rfl
@[simp] theorem placeFrame_cmd (bs : Bytes) (s : State) : (placeFrame bs s).cmd = s.cmd := rfl
@[simp] theorem placeFrame_dir (bs : Bytes) (s : State) : (placeFrame bs s).dir = s.dir := rfl
@[simp] theorem placeFrame_resp (bs : Bytes) (s : State) : (placeFrame bs s).resp = s.resp := rfl
@[simp] theorem placeFrame_rx (bs : Bytes) (s : State) : (placeFrame bs s).rx = bs := rfl
@[simp] theorem placeFrame_tx (bs : Bytes) (s : State) : (placeFrame bs s).tx = s.tx := rfl
@[simp] theorem placeFrame_draws (bs : Bytes) (s : State) : (placeFrame bs s).draws = s.draws := rfl
@[simp] theorem placeFrame_resetIn (bs : Bytes) (s : State) : (placeFrame bs s).resetIn = false := rfl

@[simp] theorem applyReset_k (s : State) : (applyReset s).k = State.reset.k := rfl
@[simp] theorem applyReset_n1 (s : State) : (applyReset s).n1 = State.reset.n1 := rfl
@[simp] theorem applyReset_n2 (s : State) : (applyReset s).n2 = State.reset.n2 := rfl
@[simp] theorem applyReset_gamma (s : State) : (applyReset s).gamma = State.reset.gamma := rfl
@[simp] theorem applyReset_ks (s : State) : (applyReset s).ks = State.reset.ks := rfl
@[simp] theorem applyReset_rnd (s : State) : (applyReset s).rnd = State.reset.rnd := rfl
@[simp] theorem applyReset_pos (s : State) : (applyReset s).pos = State.reset.pos := rfl
@[simp] theorem applyReset_phase (s : State) : (applyReset s).phase = State.reset.phase := rfl
@[simp] theorem applyReset_cmd (s : State) : (applyReset s).cmd = State.reset.cmd := rfl
@[simp] theorem applyReset_dir (s : State) : (applyReset s).dir = State.reset.dir := rfl
@[simp] theorem applyReset_resp (s : State) : (applyReset s).resp = State.reset.resp := rfl
@[simp] theorem applyReset_rx (s : State) : (applyReset s).rx = s.rx := rfl
@[simp] theorem applyReset_tx (s : State) : (applyReset s).tx = State.reset.tx := rfl
@[simp] theorem applyReset_draws (s : State) : (applyReset s).draws = s.draws := rfl
@[simp] theorem applyReset_resetIn (s : State) : (applyReset s).resetIn = State.reset.resetIn := rfl

end Sys2Proof.Machine
end

