-- ==== Sys2Proof/Laws/Sequencer.lean ====
section
/-! SUPPORT. One equation per phase of the sequencer, what a command that passes CHECK is, what a byte-space read
gives, and how runs of the sequencer compose. -/

namespace Sys2Proof.Machine

/-! ### The step each phase enables -/
variable {S : SBox} {s t u : State}

theorem seqStep_idle (h : s.phase = .idle) : seqStep S s = acceptStep s := by simp [seqStep, h]
theorem seqStep_check (h : s.phase = .check) : seqStep S s = checkStep s := by simp [seqStep, h]
theorem seqStep_kexp (h : s.phase = .kexp) : seqStep S s = kexpStep s := by simp [seqStep, h]
theorem seqStep_ivsel (h : s.phase = .ivsel) : seqStep S s = ivselStep s := by simp [seqStep, h]
theorem seqStep_next (h : s.phase = .next) : seqStep S s = nextStep s := by simp [seqStep, h]
theorem seqStep_load (h : s.phase = .load) : seqStep S s = loadStep s := by simp [seqStep, h]
theorem seqStep_round (h : s.phase = .round) : seqStep S s = roundStep S s := by simp [seqStep, h]
theorem seqStep_pack (h : s.phase = .pack) : seqStep S s = packStep s := by simp [seqStep, h]
theorem seqStep_mix (h : s.phase = .mix) : seqStep S s = mixStep s := by simp [seqStep, h]
theorem seqStep_done (h : s.phase = .done) : seqStep S s = doneStep s := by simp [seqStep, h]

/-! ### What CHECK lets pass -/

/-- What a command that passes CHECK is (R162). -/
structure Valid (c : Cmd) (op : Op) : Prop where
  operation : c.operation = some op
  reserved  : c.reserved = 0
  noStrayIv : c.ivp = false → c.ivField.length = 0
  ivTaken   : c.ivp = true → op = .senc
  block     : op.isBlock = true → c.data.length = 8
  key       : c.key.length = 32
  iv        : op = .senc → c.ivp = true → c.ivField.length = 8
  envelope  : op = .sdec → 8 ≤ c.data.length

theorem checkCmd_none {c : Cmd} : checkCmd c = none ↔ ∃ op, Valid c op := by
  constructor
  · intro h
    unfold checkCmd at h
    split at h
    · cases h
    · rename_i op ho
      refine ⟨op, ho, ?_, ?_, ?_, ?_, ?_, ?_, ?_⟩ <;> (repeat' split at h) <;> simp_all
  · rintro ⟨op, v⟩
    obtain ⟨ho, hr, h1, h2, h3, h4, h5, h6⟩ := v
    have h6' : op = .sdec → ¬ c.data.length < 8 := fun e => by have := h6 e; omega
    unfold checkCmd
    simp only [ho]
    repeat' split
    all_goals simp_all

/-! ### Byte-space reads -/

theorem memRead_data {c : Cmd} {off n : Nat} (h : off + n ≤ c.data.length) :
    memRead c .data off n = some ((c.data.drop off).take n) := by simp [memRead, spaceBytes, h]
theorem memRead_key {c : Cmd} (h : c.key.length = 32) : memRead c .key 0 32 = some c.key := by
  simp [memRead, spaceBytes, h, List.take_of_length_le]
theorem memRead_iv {c : Cmd} (hp : c.ivp = true) (h : c.ivField.length = 8) : memRead c .iv 0 8 = some c.ivField := by
  simp [memRead, spaceBytes, Cmd.iv, hp, h, List.take_of_length_le]

theorem memRead_length {c : Cmd} {sp : Space} {off n : Nat} {b : Bytes} (h : memRead c sp off n = some b) : b.length = n := by
  unfold memRead at h
  split at h
  · cases h
  · split at h
    · cases h
      simp
      omega
    · cases h

/-! ### Runs of the sequencer -/

/-- `n` steps lead from `s` to `t`, and the engine is busy before the last of them is done. -/
def Reaches (S : SBox) (n : Nat) (s t : State) : Prop :=
  seqRun S n s = .next t ∧ ∀ k, k < n → ∀ u, seqRun S k s = .next u → u.phase ≠ .idle

theorem seqRun_add (m n : Nat) (s : State) :
    seqRun S (m + n) s =
      match seqRun S m s with
      | .next t => seqRun S n t
      | .fault f => .fault f
      | .refused r => .refused r := by
  induction m generalizing s with
  | zero => simp [seqRun]
  | succ m ih =>
      rw [Nat.succ_add, seqRun, seqRun]
      cases seqStep S s with
      | next t => exact ih t
      | fault f => rfl
      | refused r => rfl

theorem Reaches.refl (s : State) : Reaches S 0 s s := ⟨rfl, fun _ h => absurd h (Nat.not_lt_zero _)⟩

theorem Reaches.step (hp : s.phase ≠ .idle) (h : seqStep S s = .next t) : Reaches S 1 s t := by
  refine ⟨by simp [seqRun, h], ?_⟩
  intro k hk u hu
  obtain rfl : k = 0 := by omega
  cases hu
  exact hp

theorem Reaches.trans {m n : Nat} (h1 : Reaches S m s t) (h2 : Reaches S n t u) : Reaches S (m + n) s u := by
  refine ⟨by rw [seqRun_add, h1.1]; exact h2.1, ?_⟩
  intro k hk w hw
  by_cases hm : k < m
  · exact h1.2 k hm w hw
  · obtain ⟨j, rfl⟩ : ∃ j, k = m + j := ⟨k - m, by omega⟩
    rw [seqRun_add, h1.1] at hw
    exact h2.2 j (by omega) w hw

theorem runToIdle_idle (n : Nat) (h : s.phase = .idle) : runToIdle S n s = .next s := by
  cases n <;> simp [runToIdle, h]

theorem runToIdle_of_reaches {m : Nat} (n : Nat) (h : Reaches S m s t) : runToIdle S (m + n) s = runToIdle S n t := by
  induction m generalizing s with
  | zero =>
      cases h.1
      simp
  | succ m ih =>
      have hs : s.phase ≠ .idle := h.2 0 (by omega) s rfl
      rw [Nat.succ_add, runToIdle, if_neg hs]
      have h1 := h.1
      rw [seqRun] at h1
      cases e : seqStep S s with
      | next w =>
          rw [e] at h1
          refine ih ⟨h1, fun k hk v hv => h.2 (k + 1) (by omega) v ?_⟩
          rw [seqRun, e]
          exact hv
      | fault f => rw [e] at h1; cases h1
      | refused r => rw [e] at h1; cases h1

/-! ### 32 rounds -/

theorem rounds_reached (h : s.phase = .round) (h0 : s.rnd = 0) (n : Nat) (hn : n ≤ 32) :
    Reaches S n s
      { s with n1 := (rounds S s.k (idxOf s.dir) (s.n1, s.n2) n).1, n2 := (rounds S s.k (idxOf s.dir) (s.n1, s.n2) n).2,
               rnd := ⟨n, by omega⟩, phase := if n = 32 then .pack else .round } := by
  induction n with
  | zero =>
      have e : (⟨0, by omega⟩ : Fin 33) = s.rnd := h0.symm
      simp only [rounds, e]
      cases s
      simp only at h
      subst h
      exact Reaches.refl _
  | succ n ih =>
      refine (ih (by omega)).trans (Reaches.step ?_ ?_)
      · simp only [if_neg (show ¬ n = 32 by omega)]
        simp
      · have hn' : n < 32 := by omega
        rw [seqStep_round (by simp [if_neg (show ¬ n = 32 by omega)])]
        simp only [roundStep, hn', dif_pos, rounds]

end Sys2Proof.Machine
end

