-- ==== Sys2Proof/Laws/Runs.lean ====
section
/-! SUPPORT. What the sequencer's steps add up to: one block transform, one block of a stream, the rest of a stream,
and each command from CHECK to its response, with what it leaves alone. -/

namespace Sys2Proof.Machine

variable {S : SBox} {s t u : State}

/-- The state after a whole block transform on `src` in state `s`: LOAD, 32 rounds and the packing of the final
pair, but for the response and the phase. -/
def transformed (S : SBox) (src : Block) (s : State) : State :=
  let p := rounds S s.k (idxOf s.dir) (firstHalf src, secondHalf src) 32
  { s with n1 := p.1, n2 := p.2, rnd := 32, ks := blockCore S s.k (idxOf s.dir) src }

theorem load_block {op : Op} (h : s.phase = .load) (ho : s.cmd.operation = some op) (hb : op.isBlock = true)
    (hd : 8 ≤ s.cmd.data.length) : seqStep S s = .next (loadPair (blockOf s.cmd.data) s) := by
  rw [seqStep_load h]
  simp only [loadStep, ho, hb, if_true]
  rw [memRead_data (by omega)]
  simp [blockOf_take]

theorem load_stream {op : Op} (h : s.phase = .load) (ho : s.cmd.operation = some op) (hb : op.isBlock = false) :
    seqStep S s = .next (loadPair s.gamma s) := by
  rw [seqStep_load h]
  simp [loadStep, ho, hb]

/-- From the state LOAD leaves to the end of PACK (R126). -/
theorem transform_reached {op : Op} (src : Block) (ho : s.cmd.operation = some op) :
    Reaches S 33 (loadPair src s)
      (if op.isBlock then
        { transformed S src s with
            resp := s.resp ++ blockBytes (blockCore S s.k (idxOf s.dir) src), phase := .done }
      else { transformed S src s with phase := .mix }) := by
  have h := rounds_reached (S := S) (s := loadPair src s) rfl rfl 32 (Nat.le_refl _)
  refine h.trans (Reaches.step (by simp) ?_)
  rw [seqStep_pack (by simp)]
  simp only [packStep, loadPair, ho]
  split
  · simp [transformed, appendResp, blockCore, Config.nRounds]
  · simp [transformed, blockCore, Config.nRounds]

theorem check_passes {op : Op} (h : s.phase = .check) (v : Valid s.cmd op) :
    seqStep S s = .next { s with dir := dirOf (some op), resp := [], phase := .kexp } := by
  rw [seqStep_check h, checkStep, checkCmd_none.mpr ⟨op, v⟩, v.operation]

theorem check_refuses {f : CmdFault} (h : s.phase = .check) (hc : checkCmd s.cmd = some f) :
    seqStep S s = .next (raiseFault f s) := by
  rw [seqStep_check h, checkStep, hc]

theorem kexp_step {op : Op} (h : s.phase = .kexp) (v : Valid s.cmd op) :
    seqStep S s = .next { s with k := subkeysOf s.cmd.key, phase := if op.isBlock then .load else .ivsel } := by
  rw [seqStep_kexp h]
  simp [kexpStep, v.operation, memRead_key v.key]

/-- A valid block command from CHECK to its response. -/
theorem block_command_reached {op : Op} (h : s.phase = .check) (v : Valid s.cmd op) (hb : op.isBlock = true) :
    ∃ t, Reaches S 37 s t ∧
      t = { s with k := subkeysOf s.cmd.key, n1 := t.n1, n2 := t.n2, ks := t.ks, rnd := t.rnd, dir := t.dir, resp := t.resp,
                   phase := .idle,
                   tx := s.tx ++ [⟨.ok, blockBytes (blockCore S (subkeysOf s.cmd.key) (idxOf (dirOf (some op))) (blockOf s.cmd.data))⟩] } := by
  have r1 := Reaches.step (S := S) (by simp [h]) (check_passes h v)
  have r2 := r1.trans (Reaches.step (by simp) (kexp_step (S := S) (op := op) rfl v))
  have r3 := r2.trans (Reaches.step (by simp [hb]) (load_block (S := S) (op := op) (by simp [hb]) v.operation hb (by have := v.block hb; simp [this])))
  have r4 := r3.trans (transform_reached (S := S) (op := op) _ v.operation)
  have r5 := r4.trans (Reaches.step (by simp [hb]) (by rw [seqStep_done (by simp [hb])]; rfl))
  refine ⟨_, r5, ?_⟩
  simp [hb, finish, deliver, transformed]

/-- What MIX makes of the chaining register, given the block it consumed and the block it produced (R146). -/
def mixed (op : Op) (inp o : Bytes) : Block := if op = .senc then blockOf o else blockOf inp

/-- One block of the stream: NEXT, LOAD, 32 rounds, PACK, MIX. -/
theorem stream_block_reached {op : Op} (h : s.phase = .next) (ho : s.cmd.operation = some op) (hb : op.isBlock = false)
    (hd : s.dir = .encrypt) (hp : s.pos < (streamOf op s.cmd).length) :
    let inp := ((streamOf op s.cmd).drop s.pos).take 8
    let o := xorBytes inp (blockBytes (blockCore S s.k encIdx s.gamma))
    ∃ t, Reaches S 36 s t ∧
      t = { s with n1 := t.n1, n2 := t.n2, ks := t.ks, rnd := t.rnd, resp := s.resp ++ o, gamma := mixed op inp o,
                   pos := s.pos + min 8 ((streamOf op s.cmd).length - s.pos) } := by
  intro inp o
  have r1 : Reaches S 1 s { s with phase := .load } := by
    refine Reaches.step (by simp [h]) ?_
    rw [seqStep_next h]
    simp [nextStep, ho, hb, Nat.ne_of_lt hp]
  have r2 := r1.trans (Reaches.step (by simp) (load_stream (S := S) (op := op) (by simp) ho hb))
  have r3 := r2.trans (transform_reached (S := S) (op := op) _ ho)
  have hm : memRead s.cmd .data (op.streamBase + s.pos) (min 8 ((streamOf op s.cmd).length - s.pos)) = some inp := by
    rw [memRead_data]
    · simp only [inp, streamOf, List.drop_drop]
      rw [Option.some.injEq, List.take_eq_take_iff]
      simp
      omega
    · simp only [streamOf, List.length_drop] at hp ⊢
      omega
  let t : State :=
    { s with n1 := (rounds S s.k (idxOf s.dir) (firstHalf s.gamma, secondHalf s.gamma) 32).1,
             n2 := (rounds S s.k (idxOf s.dir) (firstHalf s.gamma, secondHalf s.gamma) 32).2,
             rnd := 32, ks := blockCore S s.k encIdx s.gamma, resp := s.resp ++ o, gamma := mixed op inp o,
             pos := s.pos + min 8 ((streamOf op s.cmd).length - s.pos) }
  refine ⟨t, r3.trans (Reaches.step (by simp [hb]) ?_), rfl⟩
  rw [seqStep_mix (by simp [hb])]
  simp only [hb, Bool.false_eq_true, if_false, mixStep, transformed, ho, hm, hd, idxOf]
  simp only [appendResp, t, h, hd, idxOf]
  rfl

/-- The rest of a stream and the response, from NEXT. -/
theorem senc_stream_reached (h : s.phase = .next) (ho : s.cmd.operation = some .senc) (hd : s.dir = .encrypt)
    (n : Nat) (hp : s.pos ≤ s.cmd.data.length) (hn : blockCount (s.cmd.data.length - s.pos) = n) :
    ∃ t, Reaches S (36 * n + 2) s t ∧
      t = { s with n1 := t.n1, n2 := t.n2, ks := t.ks, rnd := t.rnd, resp := t.resp, gamma := t.gamma, pos := t.pos,
                   phase := .idle,
                   tx := s.tx ++ [⟨.ok, s.resp ++ cfbEncFrom S s.k s.gamma (streamBlocks (s.cmd.data.drop s.pos))⟩] } := by
  induction n generalizing s with
  | zero =>
      have hz : s.pos = s.cmd.data.length := by simp only [blockCount] at hn; omega
      have r1 : Reaches S 1 s { s with phase := .done } := by
        refine Reaches.step (by simp [h]) ?_
        rw [seqStep_next h]
        simp [nextStep, ho, Op.isBlock, streamOf, Op.streamBase, hz]
      refine ⟨_, r1.trans (Reaches.step (by simp) (by rw [seqStep_done (by simp)]; rfl)), ?_⟩
      simp [finish, deliver, hz, cfbEncFrom]
  | succ n ih =>
      have hlt : s.pos < s.cmd.data.length := by simp only [blockCount] at hn; omega
      obtain ⟨t, ht, et⟩ := stream_block_reached (S := S) (op := .senc) h ho rfl hd (by simpa [streamOf, Op.streamBase] using hlt)
      have hne : s.cmd.data.drop s.pos ≠ [] := by simp; omega
      obtain ⟨u, hu, eu⟩ := ih (s := t) (by rw [et]; exact h) (by rw [et]; exact ho) (by rw [et]; exact hd)
        (by rw [et]; simp [streamOf, Op.streamBase]; omega)
        (by rw [et]; simp only [streamOf, Op.streamBase, List.drop_zero]; simp only [blockCount] at hn ⊢; omega)
      have e1 : 36 * (n + 1) + 2 = 36 + (36 * n + 2) := by omega
      refine ⟨u, e1 ▸ ht.trans hu, ?_⟩
      rw [eu, et]
      simp only [streamOf, Op.streamBase, List.drop_zero]
      rw [streamBlocks_of_ne_nil hne]
      have hdrop : streamBlocks (s.cmd.data.drop (s.pos + min 8 (s.cmd.data.length - s.pos))) = streamBlocks ((s.cmd.data.drop s.pos).drop 8) := by
        congr 1
        rw [List.drop_drop]
        by_cases h8 : 8 ≤ s.cmd.data.length - s.pos
        · rw [Nat.min_eq_left h8]
        · rw [List.drop_eq_nil_of_le (by omega), List.drop_eq_nil_of_le (by omega)]
      simp [cfbEncFrom, mixed, hdrop]

theorem sdec_stream_reached (h : s.phase = .next) (ho : s.cmd.operation = some .sdec) (hd : s.dir = .encrypt)
    (n : Nat) (hp : s.pos ≤ (s.cmd.data.drop 8).length) (hn : blockCount ((s.cmd.data.drop 8).length - s.pos) = n) :
    ∃ t, Reaches S (36 * n + 2) s t ∧
      t = { s with n1 := t.n1, n2 := t.n2, ks := t.ks, rnd := t.rnd, resp := t.resp, gamma := t.gamma, pos := t.pos,
                   phase := .idle,
                   tx := s.tx ++ [⟨.ok, s.resp ++ cfbDecFrom S s.k s.gamma (streamBlocks ((s.cmd.data.drop 8).drop s.pos))⟩] } := by
  induction n generalizing s with
  | zero =>
      have hz : s.pos = (s.cmd.data.drop 8).length := by simp only [blockCount] at hn; omega
      have r1 : Reaches S 1 s { s with phase := .done } := by
        refine Reaches.step (by simp [h]) ?_
        rw [seqStep_next h]
        simp only [nextStep, ho, Op.isBlock, streamOf, Op.streamBase, hz, if_true]
        rfl
      refine ⟨_, r1.trans (Reaches.step (by simp) (by rw [seqStep_done (by simp)]; rfl)), ?_⟩
      have hnil : (s.cmd.data.drop 8).drop s.pos = [] := by rw [hz]; exact List.drop_length
      simp [finish, deliver, hnil, cfbDecFrom]
  | succ n ih =>
      have hlt : s.pos < (s.cmd.data.drop 8).length := by simp only [blockCount] at hn; omega
      obtain ⟨t, ht, et⟩ := stream_block_reached (S := S) (op := .sdec) h ho rfl hd hlt
      have hne : (s.cmd.data.drop 8).drop s.pos ≠ [] := by simp at hlt ⊢; omega
      obtain ⟨u, hu, eu⟩ := ih (s := t) (by rw [et]; exact h) (by rw [et]; exact ho) (by rw [et]; exact hd)
        (by rw [et]; simp only [streamOf, Op.streamBase]; omega)
        (by rw [et]; simp only [streamOf, Op.streamBase]; simp only [blockCount] at hn ⊢; omega)
      have e1 : 36 * (n + 1) + 2 = 36 + (36 * n + 2) := by omega
      refine ⟨u, e1 ▸ ht.trans hu, ?_⟩
      rw [eu, et]
      simp only [streamOf, Op.streamBase]
      rw [streamBlocks_of_ne_nil hne]
      generalize s.cmd.data.drop 8 = st at *
      have hdrop : streamBlocks (st.drop (s.pos + min 8 (st.length - s.pos))) = streamBlocks ((st.drop s.pos).drop 8) := by
        congr 1
        rw [List.drop_drop]
        by_cases h8 : 8 ≤ st.length - s.pos
        · rw [Nat.min_eq_left h8]
        · rw [List.drop_eq_nil_of_le (by omega), List.drop_eq_nil_of_le (by omega)]
      simp [cfbDecFrom, mixed, hdrop]

end Sys2Proof.Machine
end

