-- ==== Sys2Proof/Laws/Commands.lean ====
section
/-! SUPPORT. What handing a command to an idle engine comes to, once for each kind of command: its response, and
every register and interface it leaves alone. -/

namespace Sys2Proof.Machine

variable {S : SBox} {s t u : State}

theorem Valid.unique {c : Cmd} {op op' : Op} (v : Valid c op) (v' : Valid c op') : op = op' :=
  Option.some.inj (v.operation.symm.trans v'.operation)

/-- A SENC with an explicit IV, from CHECK to its response. -/
theorem senc_explicit_reached (h : s.phase = .check) (v : Valid s.cmd .senc) (hp : s.cmd.ivp = true) :
    ∃ t, Reaches S (5 + 36 * blockCount s.cmd.data.length) s t ∧
      t = { s with k := subkeysOf s.cmd.key, n1 := t.n1, n2 := t.n2, gamma := t.gamma, ks := t.ks, rnd := t.rnd, pos := t.pos,
                   dir := t.dir, resp := t.resp, phase := .idle,
                   tx := s.tx ++ [⟨.ok, blockBytes (blockOf s.cmd.ivField)
                     ++ cfbEncFrom S (subkeysOf s.cmd.key) (blockOf s.cmd.ivField) (streamBlocks s.cmd.data)⟩] } := by
  have r1 := Reaches.step (S := S) (by simp [h]) (check_passes h v)
  have r2 := r1.trans (Reaches.step (by simp) (kexp_step (S := S) (op := .senc) rfl v))
  have r3 := r2.trans (Reaches.step (t := startEncrypt (blockOf s.cmd.ivField) _) (by simp [Op.isBlock])
    (by rw [seqStep_ivsel (by simp [Op.isBlock])]
        simp only [ivselStep, v.operation, hp, if_true]
        rw [memRead_iv hp (v.iv rfl hp)]))
  obtain ⟨t, ht, et⟩ := senc_stream_reached (S := S)
    (s := startEncrypt (blockOf s.cmd.ivField) { s with dir := dirOf (some .senc), resp := [], k := subkeysOf s.cmd.key, phase := .ivsel })
    rfl v.operation rfl _ (by simp) rfl
  refine ⟨t, ?_, ?_⟩
  · have := r3.trans ht
    simp only [startEncrypt_pos, startEncrypt_cmd, Nat.sub_zero] at this
    rw [show 5 + 36 * blockCount s.cmd.data.length = 1 + 1 + 1 + (36 * blockCount s.cmd.data.length + 2) by omega]
    exact this
  · rw [et]
    simp

/-- A SENC without IV whose draw is answered `d`, from CHECK to its response. -/
theorem senc_drawn_reached (d : Block) (ds : List Block) (h : s.phase = .check) (v : Valid s.cmd .senc) (hp : s.cmd.ivp = false)
    (hd : s.draws = d :: ds) :
    ∃ t, Reaches S (5 + 36 * blockCount s.cmd.data.length) s t ∧
      t = { s with k := subkeysOf s.cmd.key, n1 := t.n1, n2 := t.n2, gamma := t.gamma, ks := t.ks, rnd := t.rnd, pos := t.pos,
                   dir := t.dir, resp := t.resp, phase := .idle, draws := ds,
                   tx := s.tx ++ [⟨.ok, blockBytes d
                     ++ cfbEncFrom S (subkeysOf s.cmd.key) d (streamBlocks s.cmd.data)⟩] } := by
  have r1 := Reaches.step (S := S) (by simp [h]) (check_passes h v)
  have r2 := r1.trans (Reaches.step (by simp) (kexp_step (S := S) (op := .senc) rfl v))
  have r3 := r2.trans (Reaches.step (t := startEncrypt d
      { s with dir := dirOf (some .senc), resp := [], k := subkeysOf s.cmd.key, phase := .ivsel, draws := ds }) (by simp [Op.isBlock])
    (by rw [seqStep_ivsel (by simp [Op.isBlock])]
        simp only [ivselStep, v.operation, hp, hd, Bool.false_eq_true, if_false]
        rfl))
  obtain ⟨t, ht, et⟩ := senc_stream_reached (S := S)
    (s := startEncrypt d { s with dir := dirOf (some .senc), resp := [], k := subkeysOf s.cmd.key, phase := .ivsel, draws := ds })
    rfl v.operation rfl _ (by simp) rfl
  refine ⟨t, ?_, ?_⟩
  · have := r3.trans ht
    simp only [startEncrypt_pos, startEncrypt_cmd, Nat.sub_zero] at this
    rw [show 5 + 36 * blockCount s.cmd.data.length = 1 + 1 + 1 + (36 * blockCount s.cmd.data.length + 2) by omega]
    exact this
  · rw [et]
    simp

/-- A SENC without IV while the entropy source is silent: it reaches IVSEL, where no step moves it (R177). -/
theorem senc_silent_reached (h : s.phase = .check) (v : Valid s.cmd .senc) (hp : s.cmd.ivp = false) (hd : s.draws = []) :
    let t : State := { s with dir := dirOf (some .senc), resp := [], k := subkeysOf s.cmd.key, phase := .ivsel }
    Reaches S 2 s t ∧ seqStep S t = .next t := by
  intro t
  have r1 := Reaches.step (S := S) (by simp [h]) (check_passes h v)
  refine ⟨r1.trans (Reaches.step (by simp) (kexp_step (S := S) (op := .senc) rfl v)), ?_⟩
  rw [seqStep_ivsel rfl]
  simp only [ivselStep, t, v.operation, hp, hd, Bool.false_eq_true, if_false]

/-- An SDEC, from CHECK to its response. -/
theorem sdec_reached (h : s.phase = .check) (v : Valid s.cmd .sdec) :
    ∃ t, Reaches S (5 + 36 * blockCount (s.cmd.data.drop 8).length) s t ∧
      t = { s with k := subkeysOf s.cmd.key, n1 := t.n1, n2 := t.n2, gamma := t.gamma, ks := t.ks, rnd := t.rnd, pos := t.pos,
                   dir := t.dir, resp := t.resp, phase := .idle,
                   tx := s.tx ++ [⟨.ok,
                     cfbDecFrom S (subkeysOf s.cmd.key) (blockOf s.cmd.data) (streamBlocks (s.cmd.data.drop 8))⟩] } := by
  have r1 := Reaches.step (S := S) (by simp [h]) (check_passes h v)
  have r2 := r1.trans (Reaches.step (by simp) (kexp_step (S := S) (op := .sdec) rfl v))
  have r3 := r2.trans (Reaches.step (t := startDecrypt (blockOf s.cmd.data) _) (by simp [Op.isBlock])
    (by rw [seqStep_ivsel (by simp [Op.isBlock])]
        simp only [ivselStep, v.operation]
        rw [memRead_data (by have := v.envelope rfl; omega)]
        simp only [List.drop_zero, blockOf_take]
        rfl))
  obtain ⟨t, ht, et⟩ := sdec_stream_reached (S := S)
    (s := startDecrypt (blockOf s.cmd.data) { s with dir := dirOf (some .sdec), resp := [], k := subkeysOf s.cmd.key, phase := .ivsel })
    rfl v.operation rfl _ (by simp) rfl
  refine ⟨t, ?_, ?_⟩
  · have := r3.trans ht
    simp only [startDecrypt_pos, startDecrypt_cmd, Nat.sub_zero] at this
    rw [show 5 + 36 * blockCount (s.cmd.data.drop 8).length = 1 + 1 + 1 + (36 * blockCount (s.cmd.data.drop 8).length + 2) by omega]
    exact this
  · rw [et]
    simp

/-! ### A command handed to an idle engine -/

theorem present_of_reaches {c : Cmd} (h : s.phase = .idle) (hr : Reaches S (stepCount c - 1) (accept c s) t) :
    present S c s = .next t := by
  rw [present, if_pos h]
  have := runToIdle_of_reaches 0 hr
  simpa [runToIdle] using this

theorem runToIdle_of_reaches_idle {m n : Nat} (hle : m ≤ n) (h : Reaches S m s t) (hi : t.phase = .idle) :
    runToIdle S n s = .next t := by
  obtain ⟨k, rfl⟩ : ∃ k, n = m + k := ⟨n - m, by omega⟩
  rw [runToIdle_of_reaches k h, runToIdle_idle k hi]

theorem runToIdle_stuck (n : Nat) (h : seqStep S s = .next s) : runToIdle S n s = .next s := by
  induction n with
  | zero => rfl
  | succ n ih =>
      rw [runToIdle]
      split
      · rfl
      · rw [h]; exact ih

theorem stepCount_pos (c : Cmd) : 2 ≤ stepCount c := by
  unfold stepCount
  split <;> omega

/-- A command that CHECK refuses: the whole effect of presenting it (R169, R170). -/
theorem present_refused {c : Cmd} {f : CmdFault} (h : s.phase = .idle) (hc : checkCmd c = some f) :
    present S c s = .next (raiseFault f (accept c s)) := by
  rw [present, if_pos h]
  have := stepCount_pos c
  exact runToIdle_of_reaches_idle (m := 1) (by omega) (Reaches.step (by simp) (check_refuses rfl hc)) rfl

theorem stepCount_block {c : Cmd} {op : Op} (v : Valid c op) (hb : op.isBlock = true) : stepCount c - 1 = 37 := by
  cases op <;> simp_all [stepCount, v.operation, Op.isBlock]

theorem stepCount_senc {c : Cmd} (v : Valid c .senc) : stepCount c - 1 = 5 + 36 * blockCount c.data.length := by
  simp [stepCount, v.operation, streamOf, Op.streamBase]

theorem stepCount_sdec {c : Cmd} (v : Valid c .sdec) : stepCount c - 1 = 5 + 36 * blockCount (c.data.drop 8).length := by
  simp [stepCount, v.operation, streamOf, Op.streamBase]

theorem present_block {c : Cmd} {op : Op} (h : s.phase = .idle) (v : Valid c op) (hb : op.isBlock = true) :
    ∃ t, present S c s = .next t ∧
      t = { s with k := subkeysOf c.key, n1 := t.n1, n2 := t.n2, ks := t.ks, rnd := t.rnd, dir := t.dir, resp := t.resp,
                   cmd := c,
                   tx := s.tx ++ [⟨.ok, blockBytes (blockCore S (subkeysOf c.key) (idxOf (dirOf (some op))) (blockOf c.data))⟩] } := by
  obtain ⟨t, ht, et⟩ := block_command_reached (S := S) (s := accept c s) rfl v hb
  refine ⟨t, present_of_reaches h (by rw [stepCount_block v hb]; exact ht), ?_⟩
  rw [et]
  simp [h]

theorem present_senc_explicit {c : Cmd} (h : s.phase = .idle) (v : Valid c .senc) (hp : c.ivp = true) :
    ∃ t, present S c s = .next t ∧
      t = { s with k := subkeysOf c.key, n1 := t.n1, n2 := t.n2, gamma := t.gamma, ks := t.ks, rnd := t.rnd, pos := t.pos,
                   dir := t.dir, resp := t.resp, cmd := c,
                   tx := s.tx ++ [⟨.ok, blockBytes (blockOf c.ivField)
                     ++ cfbEncFrom S (subkeysOf c.key) (blockOf c.ivField) (streamBlocks c.data)⟩] } := by
  obtain ⟨t, ht, et⟩ := senc_explicit_reached (S := S) (s := accept c s) rfl v hp
  refine ⟨t, present_of_reaches h (by rw [stepCount_senc v]; exact ht), ?_⟩
  rw [et]
  simp [h]

theorem present_senc_drawn {c : Cmd} {d : Block} {ds : List Block} (h : s.phase = .idle) (v : Valid c .senc) (hp : c.ivp = false)
    (hd : s.draws = d :: ds) :
    ∃ t, present S c s = .next t ∧
      t = { s with k := subkeysOf c.key, n1 := t.n1, n2 := t.n2, gamma := t.gamma, ks := t.ks, rnd := t.rnd, pos := t.pos,
                   dir := t.dir, resp := t.resp, cmd := c, draws := ds,
                   tx := s.tx ++ [⟨.ok, blockBytes d ++ cfbEncFrom S (subkeysOf c.key) d (streamBlocks c.data)⟩] } := by
  obtain ⟨t, ht, et⟩ := senc_drawn_reached (S := S) (s := accept c s) d ds rfl v hp hd
  refine ⟨t, present_of_reaches h (by rw [stepCount_senc v]; exact ht), ?_⟩
  rw [et]
  simp [h]

theorem present_senc_silent {c : Cmd} (h : s.phase = .idle) (v : Valid c .senc) (hp : c.ivp = false) (hd : s.draws = []) :
    present S c s = .next { s with cmd := c, dir := .encrypt, resp := [], k := subkeysOf c.key, phase := .ivsel } := by
  obtain ⟨h2, hs⟩ := senc_silent_reached (S := S) (s := accept c s) rfl v hp hd
  rw [present, if_pos h, stepCount_senc v,
    show 5 + 36 * blockCount c.data.length = 2 + (3 + 36 * blockCount c.data.length) by omega, runToIdle_of_reaches _ h2,
    runToIdle_stuck _ hs]
  rfl

theorem present_sdec {c : Cmd} (h : s.phase = .idle) (v : Valid c .sdec) :
    ∃ t, present S c s = .next t ∧
      t = { s with k := subkeysOf c.key, n1 := t.n1, n2 := t.n2, gamma := t.gamma, ks := t.ks, rnd := t.rnd, pos := t.pos,
                   dir := t.dir, resp := t.resp, cmd := c,
                   tx := s.tx ++ [⟨.ok, cfbDecFrom S (subkeysOf c.key) (blockOf c.data) (streamBlocks (c.data.drop 8))⟩] } := by
  obtain ⟨t, ht, et⟩ := sdec_reached (S := S) (s := accept c s) rfl v
  refine ⟨t, present_of_reaches h (by rw [stepCount_sdec v]; exact ht), ?_⟩
  rw [et]
  simp [h]

end Sys2Proof.Machine
end

