-- ==== Sys2Proof/Laws/Decode.lean ====
section
/-! SUPPORT. What the frame of a command says when it is read back: its header's fields, its strings, and the row of
the opcode table its word 0 matches; and what a successful decode says of the bytes. -/

namespace Sys2Proof

open Sys2Proof.Machine

/-! ### Header fields of a word put together from its four bytes -/

theorem le32_field (a b c d : Byte) :
    (le32 a b c d).extractLsb' 0 8 = a ∧ (le32 a b c d).extractLsb' 16 8 = c ∧ (le32 a b c d).extractLsb' 24 8 = d :=
  ⟨byteOf_le32_zero a b c d, byteOf_le32_two a b c d, byteOf_le32_three a b c d⟩

theorem le32_bit8 (a b c d : Byte) : (le32 a b c d).getLsbD 8 = b.getLsbD 0 := by
  rw [le32_getLsbD]
  rfl

theorem le32_reserved (a b c d : Byte) : (le32 a b c d).extractLsb' 9 7 = b.extractLsb' 1 7 := by
  apply BitVec.eq_of_getLsbD_eq
  intro i hi
  have h : 9 + i < 16 := by omega
  have h' : ¬ 9 + i < 8 := by omega
  have e : 9 + i - 8 = 1 + i := by omega
  simp [le32_getLsbD, hi, h, h', e]

theorem flagsByte_bit0 (c : Cmd) : c.flagsByte.getLsbD 0 = c.ivp := by
  show BitVec.getLsbD (w := 7 + 1) (c.reserved ++ BitVec.ofBool c.ivp) 0 = c.ivp
  rw [BitVec.getLsbD_append]
  cases c.ivp <;> rfl

theorem flagsByte_reserved (c : Cmd) : c.flagsByte.extractLsb' 1 7 = c.reserved := by
  apply BitVec.eq_of_getLsbD_eq
  intro i hi
  have h : c.flagsByte.getLsbD (1 + i) = c.reserved.getLsbD i := by
    show BitVec.getLsbD (w := 7 + 1) (c.reserved ++ BitVec.ofBool c.ivp) (1 + i) = _
    rw [BitVec.getLsbD_append]
    have h1 : ¬ 1 + i < 1 := by omega
    have h2 : 1 + i - 1 = i := by omega
    simp [h1, h2]
  simp [hi, h]

/-- The flags byte of a header's flags is the header's byte 1. -/
theorem byte_of_flags (b : Byte) : (b.extractLsb' 1 7 ++ BitVec.ofBool (b.getLsbD 0) : Byte) = b := by
  revert b
  decide

/-- The header an encoded command carries. -/
def Cmd.header (c : Cmd) : Header :=
  ⟨le32 c.op c.flagsByte (BitVec.ofNat 8 c.key.length) (BitVec.ofNat 8 c.ivField.length), BitVec.ofNat 32 c.data.length⟩

/-- A command whose strings fit the length fields. -/
def Cmd.fits (c : Cmd) : Prop := c.key.length < 256 ∧ c.ivField.length < 256 ∧ c.data.length < Config.lengthLimit

theorem header_op (c : Cmd) : c.header.op = c.op := byteOf_le32_zero _ _ _ _
theorem header_ivp (c : Cmd) : c.header.ivp = c.ivp := (le32_bit8 _ _ _ _).trans (flagsByte_bit0 c)
theorem header_reserved (c : Cmd) : c.header.reserved = c.reserved :=
  (le32_reserved _ _ _ _).trans (flagsByte_reserved c)
theorem header_klen {c : Cmd} (h : c.fits) : c.header.klen = c.key.length := by
  have e : c.header.w0.extractLsb' 16 8 = BitVec.ofNat 8 c.key.length := byteOf_le32_two _ _ _ _
  simp [Header.klen, e, Nat.mod_eq_of_lt h.1]
theorem header_ivlen {c : Cmd} (h : c.fits) : c.header.ivlen = c.ivField.length := by
  have e : c.header.w0.extractLsb' 24 8 = BitVec.ofNat 8 c.ivField.length := byteOf_le32_three _ _ _ _
  simp [Header.ivlen, e, Nat.mod_eq_of_lt h.2.1]
theorem header_dlen {c : Cmd} (h : c.fits) : c.header.dlen = c.data.length := by
  have := h.2.2
  simp only [Config.lengthLimit] at this
  simp [Header.dlen, Cmd.header, Nat.mod_eq_of_lt this]

theorem readHeader_encode (c : Cmd) (rest : Bytes) :
    readHeader (c.encode ++ rest) = some (c.header, c.key ++ c.ivField ++ c.data ++ rest) := by
  simp [Cmd.encode, readHeader, bytesLe32, Cmd.header, List.append_assoc]

theorem splitFrame_encode {c : Cmd} (h : c.fits) (rest : Bytes) :
    splitFrame (c.encode ++ rest) = some (c.header, c, rest) := by
  have hk := header_klen h
  have hi := header_ivlen h
  have hd := header_dlen h
  simp only [splitFrame, readHeader_encode, hk, hi, hd]
  rw [if_pos (by simp; omega)]
  simp only [commandOf, hk, hi, hd, header_op, header_ivp, header_reserved]
  simp only [Option.some.injEq, Prod.mk.injEq, true_and]
  constructor
  · cases c
    simp [List.append_assoc]
  · have e : c.key.length + c.ivField.length + c.data.length = (c.key ++ c.ivField ++ c.data).length := by simp; omega
    rw [e, List.drop_left]

theorem splitFrame_some {bs : Bytes} {h : Header} {c : Cmd} {rest : Bytes} (e : splitFrame bs = some (h, c, rest)) :
    c.header = h ∧ c.fits ∧ bs = c.encode ++ rest := by
  unfold splitFrame at e
  split at e
  · cases e
  · rename_i h' body hr
    split at e
    · rename_i hle
      simp only [Option.some.injEq, Prod.mk.injEq] at e
      obtain ⟨rfl, rfl, rfl⟩ := e
      unfold readHeader at hr
      split at hr
      · rename_i b0 b1 b2 b3 b4 b5 b6 b7 body'
        simp only [Option.some.injEq, Prod.mk.injEq] at hr
        obtain ⟨rfl, rfl⟩ := hr
        have l1 : (commandOf ⟨le32 b0 b1 b2 b3, le32 b4 b5 b6 b7⟩ body').key.length = b2.toNat := by
          have e : (le32 b0 b1 b2 b3).extractLsb' 16 8 = b2 := byteOf_le32_two _ _ _ _
          simp only [Header.klen, Header.ivlen, Header.dlen, e] at hle
          simp [commandOf, Header.klen, e]; omega
        have l2 : (commandOf ⟨le32 b0 b1 b2 b3, le32 b4 b5 b6 b7⟩ body').ivField.length = b3.toNat := by
          have e : (le32 b0 b1 b2 b3).extractLsb' 24 8 = b3 := byteOf_le32_three _ _ _ _
          simp only [Header.klen, Header.ivlen, Header.dlen, e] at hle
          simp only [commandOf, Header.klen, Header.ivlen, e, List.length_take, List.length_drop]; omega
        have l3 : (commandOf ⟨le32 b0 b1 b2 b3, le32 b4 b5 b6 b7⟩ body').data.length = (le32 b4 b5 b6 b7).toNat := by
          simp only [Header.klen, Header.ivlen, Header.dlen] at hle
          simp only [commandOf, Header.klen, Header.ivlen, Header.dlen, List.length_take, List.length_drop]; omega
        have f : (commandOf ⟨le32 b0 b1 b2 b3, le32 b4 b5 b6 b7⟩ body').flagsByte = b1 := by
          have e1 := le32_reserved b0 b1 b2 b3
          have e2 := le32_bit8 b0 b1 b2 b3
          simp only [Cmd.flagsByte, commandOf, Header.reserved, Header.ivp, e1, e2]
          exact byte_of_flags b1
        have o : (commandOf ⟨le32 b0 b1 b2 b3, le32 b4 b5 b6 b7⟩ body').op = b0 := byteOf_le32_zero _ _ _ _
        refine ⟨?_, ⟨?_, ?_, ?_⟩, ?_⟩
        · simp [Cmd.header, o, f, l1, l2, l3]
        · rw [l1]; omega
        · rw [l2]; omega
        · rw [l3]; simp only [Config.lengthLimit]; omega
        · simp only [Cmd.encode, o, f, l1, l2, l3, BitVec.ofNat_toNat, BitVec.setWidth_eq]
          have hb : bytesLe32 (le32 b4 b5 b6 b7) = [b4, b5, b6, b7] := by simp [bytesLe32]
          rw [hb]
          simp only [commandOf, List.cons_append, List.nil_append, List.append_assoc, List.cons.injEq, true_and]
          generalize Header.klen _ = kl
          generalize Header.ivlen _ = il
          generalize Header.dlen _ = dl
          have a1 : body'.drop (kl + il) = (body'.drop kl).drop il := by rw [List.drop_drop]
          have a2 : body'.drop (kl + il + dl) = (body'.drop (kl + il)).drop dl := by rw [List.drop_drop]
          rw [a2, List.take_append_drop, a1, List.take_append_drop, List.take_append_drop]
      · cases hr
    · cases e


/-! ### Rows of the opcode table -/

theorem le32_and (a b c d a' b' c' d' : Byte) :
    le32 a b c d &&& le32 a' b' c' d' = le32 (a &&& a') (b &&& b') (c &&& c') (d &&& d') := by
  apply BitVec.eq_of_getLsbD_eq
  intro i _
  simp only [BitVec.getLsbD_and, le32_getLsbD]
  repeat' split
  all_goals rfl

theorem le32_inj {a b c d a' b' c' d' : Byte} :
    le32 a b c d = le32 a' b' c' d' ↔ a = a' ∧ b = b' ∧ c = c' ∧ d = d' := by
  constructor
  · intro h
    refine ⟨?_, ?_, ?_, ?_⟩
    · simpa using congrArg (byteOf · 0) h
    · simpa using congrArg (byteOf · 1) h
    · simpa using congrArg (byteOf · 2) h
    · simpa using congrArg (byteOf · 3) h
  · rintro ⟨rfl, rfl, rfl, rfl⟩
    rfl

/-- The flags byte under SENC's mask is zero exactly when the reserved bits are. -/
theorem flags_and_FE (b : Byte) : b &&& 0xFE = 0 ↔ b.extractLsb' 1 7 = 0 := by
  revert b
  decide

theorem flags_zero (b : Byte) : b = 0 ↔ b.extractLsb' 1 7 = 0 ∧ b.getLsbD 0 = false := by
  revert b
  decide

theorem hits_benc (a b c d : Byte) : (OpRow.mk .benc 0xFF00FFFF 0x00000001).hits (le32 a b c d) = true ↔ a = 1 ∧ b = 0 ∧ d = 0 := by
  have e : (0xFF00FFFF : Word) = le32 0xFF 0xFF 0 0xFF := by decide
  have e' : (0x00000001 : Word) = le32 1 0 0 0 := by decide
  have m : ∀ x : Byte, x &&& 0xFF = x := by decide
  have z : ∀ x : Byte, x &&& 0 = 0 := by decide
  simp only [OpRow.hits, e, e', le32_and, beq_iff_eq, le32_inj, m, z, true_and]

theorem hits_bdec (a b c d : Byte) : (OpRow.mk .bdec 0xFF00FFFF 0x00000002).hits (le32 a b c d) = true ↔ a = 2 ∧ b = 0 ∧ d = 0 := by
  have e : (0xFF00FFFF : Word) = le32 0xFF 0xFF 0 0xFF := by decide
  have e' : (0x00000002 : Word) = le32 2 0 0 0 := by decide
  have m : ∀ x : Byte, x &&& 0xFF = x := by decide
  have z : ∀ x : Byte, x &&& 0 = 0 := by decide
  simp only [OpRow.hits, e, e', le32_and, beq_iff_eq, le32_inj, m, z, true_and]

theorem hits_senc (a b c d : Byte) : (OpRow.mk .senc 0x0000FEFF 0x00000003).hits (le32 a b c d) = true ↔ a = 3 ∧ b.extractLsb' 1 7 = 0 := by
  have e : (0x0000FEFF : Word) = le32 0xFF 0xFE 0 0 := by decide
  have e' : (0x00000003 : Word) = le32 3 0 0 0 := by decide
  have m : ∀ x : Byte, x &&& 0xFF = x := by decide
  have z : ∀ x : Byte, x &&& 0 = 0 := by decide
  simp only [OpRow.hits, e, e', le32_and, beq_iff_eq, le32_inj, m, z, flags_and_FE, and_true]

theorem hits_sdec (a b c d : Byte) : (OpRow.mk .sdec 0xFF00FFFF 0x00000004).hits (le32 a b c d) = true ↔ a = 4 ∧ b = 0 ∧ d = 0 := by
  have e : (0xFF00FFFF : Word) = le32 0xFF 0xFF 0 0xFF := by decide
  have e' : (0x00000004 : Word) = le32 4 0 0 0 := by decide
  have m : ∀ x : Byte, x &&& 0xFF = x := by decide
  have z : ∀ x : Byte, x &&& 0 = 0 := by decide
  simp only [OpRow.hits, e, e', le32_and, beq_iff_eq, le32_inj, m, z, true_and]

/-- The row a word 0 matches, by its four bytes. -/
theorem rowOf_le32 (a b c d : Byte) (op : Op) :
    rowOf (le32 a b c d) = some op ↔
      a = op.code ∧ b.extractLsb' 1 7 = 0 ∧ (op ≠ .senc → b.getLsbD 0 = false ∧ d = 0) := by
  have h1 := hits_benc a b c d
  have h2 := hits_bdec a b c d
  have h3 := hits_senc a b c d
  have h4 := hits_sdec a b c d
  have hb := flags_zero b
  unfold rowOf opcodeRows
  simp only [List.find?_cons, List.find?_nil]
  cases k1 : (OpRow.mk .benc 0xFF00FFFF 0x00000001).hits (le32 a b c d)
  · cases k2 : (OpRow.mk .bdec 0xFF00FFFF 0x00000002).hits (le32 a b c d)
    · cases k3 : (OpRow.mk .senc 0x0000FEFF 0x00000003).hits (le32 a b c d)
      · cases k4 : (OpRow.mk .sdec 0xFF00FFFF 0x00000004).hits (le32 a b c d)
        · simp only [k1, k2, k3, k4, Bool.false_eq_true, false_iff] at h1 h2 h3 h4
          cases op <;> simp [Op.code] <;> tauto
        · simp only [k4, true_iff] at h4
          obtain ⟨rfl, rfl, rfl⟩ := h4
          cases op <;> simp [Op.code]
      · simp only [k3, true_iff] at h3
        obtain ⟨rfl, hb0⟩ := h3
        cases op <;> simp [Op.code, hb0]
    · simp only [k2, true_iff] at h2
      obtain ⟨rfl, rfl, rfl⟩ := h2
      cases op <;> simp [Op.code]
  · simp only [k1, true_iff] at h1
    obtain ⟨rfl, rfl, rfl⟩ := h1
    cases op <;> simp [Op.code]

/-- The row a command's own header matches, by the command's fields. -/
theorem rowOf_header {c : Cmd} (h : c.fits) (op : Op) :
    rowOf c.header.w0 = some op ↔
      c.op = op.code ∧ c.reserved = 0 ∧ (op ≠ .senc → c.ivp = false ∧ c.ivField = []) := by
  have e : BitVec.ofNat 8 c.ivField.length = 0 ↔ c.ivField = [] := by
    constructor
    · intro z
      have := congrArg BitVec.toNat z
      simp only [BitVec.toNat_ofNat, Nat.reducePow, Nat.mod_eq_of_lt h.2.1] at this
      exact List.eq_nil_of_length_eq_zero (by simpa using this)
    · intro z
      simp [z]
  rw [show c.header.w0 = le32 c.op c.flagsByte (BitVec.ofNat 8 c.key.length) (BitVec.ofNat 8 c.ivField.length) from rfl,
    rowOf_le32, flagsByte_reserved, flagsByte_bit0, e]

theorem toCmd_fits {i : Instr} (h : i.wellFormed = true) : i.toCmd.fits := by
  simp only [Instr.wellFormed, Instr.keyFits, Instr.ivFits, Instr.dataFits, Bool.and_eq_true, decide_eq_true_eq] at h
  exact ⟨h.1.1, h.1.2, h.2⟩

theorem rowOf_toCmd {i : Instr} (h : i.wellFormed = true) : rowOf i.toCmd.header.w0 = some i.op := by
  rw [rowOf_header (toCmd_fits h)]
  cases i <;> simp [Instr.toCmd, Instr.op, Instr.ivp, Instr.ivField]

@[simp] theorem instrOf_toCmd (i : Instr) : instrOf i.op i.toCmd = i := by
  cases i <;> rfl

theorem toCmd_instrOf {c : Cmd} {op : Op} (h : c.fits) (hr : rowOf c.header.w0 = some op) : (instrOf op c).toCmd = c := by
  obtain ⟨h1, h2, h3⟩ := (rowOf_header h op).mp hr
  obtain ⟨o, p, r, k, v, d⟩ := c
  simp only at h1 h2 h3
  subst h1 h2
  cases op <;> simp_all [instrOf, Instr.toCmd, Instr.op, Instr.ivp, Instr.ivField, Instr.key, Instr.data]

/-- Everything a successful decode says: the bytes begin with the frame of the instruction. -/
theorem decode_ok {bs : Bytes} {i : Instr} {rest : Bytes} (e : decode bs = .ok (i, rest)) :
    i.wellFormed = true ∧ splitFrame bs = some (i.toCmd.header, i.toCmd, rest) := by
  unfold decode at e
  split at e
  · cases e
  · rename_i h c rest' hs
    split at e
    · rename_i op hr
      simp only [Except.ok.injEq, Prod.mk.injEq] at e
      obtain ⟨rfl, rfl⟩ := e
      obtain ⟨rfl, hf, rfl⟩ := splitFrame_some hs
      have hc := toCmd_instrOf hf hr
      refine ⟨?_, by rw [hc, hs]⟩
      have hf' := hf
      rw [← hc] at hf'
      simp only [Instr.wellFormed, Instr.keyFits, Instr.ivFits, Instr.dataFits, Bool.and_eq_true, decide_eq_true_eq]
      exact ⟨⟨hf'.1, hf'.2.1⟩, hf'.2.2⟩
    · cases e

theorem decode_of_row {bs : Bytes} {h : Header} {c : Cmd} {rest : Bytes} {op : Op}
    (hs : splitFrame bs = some (h, c, rest)) (hr : rowOf h.w0 = some op) : decode bs = .ok (instrOf op c, rest) := by
  simp [decode, hs, hr]

theorem opOfCode_code (op : Op) : opOfCode op.code = some op := by
  cases op <;> rfl

theorem opOfCode_some {b : Byte} {op : Op} (h : opOfCode b = some op) : b = op.code := by
  unfold opOfCode at h
  repeat' split at h
  all_goals first
    | (cases h; assumption)
    | cases h

theorem operation_toCmd (i : Instr) : i.toCmd.operation = some i.op := opOfCode_code i.op

end Sys2Proof
end

