-- ==== Sys2Proof/Laws/Check.lean ====
section
/-! SUPPORT. What CHECK finds, in the terms of the statements: the fault of a command by `BreaksFrame`, its key length
and `BreaksIv`. -/

namespace Sys2Proof.Machine

theorem checkCmd_badFrame {c : Cmd} : checkCmd c = some .badFrame ↔ BreaksFrame c := by
  unfold BreaksFrame checkCmd
  cases ho : c.operation with
  | none => simp
  | some op =>
      have e1 : c.ivField.length ≠ 0 ↔ c.ivField ≠ [] := by simp
      simp only [e1]
      repeat' split
      all_goals (cases op <;> simp_all [Op.isBlock])

/-- Past the frame constraints: the key, then the IV, then nothing. -/
theorem checkCmd_framed {c : Cmd} (h : ¬ BreaksFrame c) :
    (c.key.length ≠ 32 → checkCmd c = some .invalidKeyLength) ∧
    (c.key.length = 32 → BreaksIv c → checkCmd c = some .invalidIVLength) ∧
    (c.key.length = 32 → ¬ BreaksIv c → checkCmd c = none) := by
  unfold BreaksFrame at h
  unfold BreaksIv checkCmd
  cases ho : c.operation with
  | none => simp [ho] at h
  | some op =>
      simp only [ho, not_or, not_and, Option.some.injEq, Cmd.iv] at h ⊢
      obtain ⟨_, h1, h2, h3, h4⟩ := h
      cases op <;> cases hp : c.ivp <;> simp_all [Op.isBlock]

theorem answerTooLong_senc {ivp : Bool} {key iv p : Bytes} (hc : checkCmd (Instr.senc ivp key iv p).toCmd = none)
    (hl : Config.lengthLimit ≤ 8 + p.length) : answerTooLong (Instr.senc ivp key iv p).toCmd = true := by
  rw [answerTooLong, operation_toCmd, hc]
  exact decide_eq_true hl

/-- A command that passes CHECK is in a row of the opcode table. -/
theorem rowOf_valid {c : Cmd} {op : Op} (hf : c.fits) (v : Valid c op) : rowOf c.header.w0 = some op := by
  refine (rowOf_header hf op).mpr ⟨opOfCode_some v.operation, v.reserved, fun hn => ?_⟩
  have h1 : c.ivp = false := by
    cases hi : c.ivp
    · rfl
    · exact absurd (v.ivTaken hi) hn
  exact ⟨h1, List.eq_nil_of_length_eq_zero (v.noStrayIv h1)⟩

/-- A command whose frame is in no row breaks a frame constraint. -/
theorem breaksFrame_of_no_row {c : Cmd} (hf : c.fits) (hr : rowOf c.header.w0 = none) : BreaksFrame c := by
  by_contra hb
  unfold BreaksFrame at hb
  simp only [not_or, not_and] at hb
  obtain ⟨a, b, c', d, _⟩ := hb
  cases ho : c.operation with
  | none => exact a ho
  | some op =>
      have hrow := (rowOf_header hf op).mpr ⟨opOfCode_some ho, by simpa using b, fun hn => by
        rw [ho] at d
        have h1 : c.ivp = false := by
          cases hi : c.ivp
          · rfl
          · exact absurd (by simpa using d hi) hn
        exact ⟨h1, by simpa using c' h1⟩⟩
      rw [hrow] at hr
      cases hr

end Sys2Proof.Machine
end

