-- ==== Sys2Proof/Laws/PerInstr.lean ====
section
/-! SUPPORT. Facts about an instruction as syntax, one lemma per constructor. -/

namespace Sys2Proof.Laws.Encodes

/-- The frame of an instruction begins with its row's opcode byte, and is 8 bytes longer than its three strings
(R73, R76). -/
def Statement (i : Instr) : Prop :=
  (encode i).head? = some i.op.code ∧
    (encode i).length = 8 + i.key.length + i.ivField.length + i.data.length

theorem benc (key data : Bytes) : Statement (.benc key data) := by
  constructor
  · rfl
  · simp [encode, Cmd.encode, Instr.toCmd, bytesLe32]
    omega

theorem bdec (key data : Bytes) : Statement (.bdec key data) := by
  constructor
  · rfl
  · simp [encode, Cmd.encode, Instr.toCmd, bytesLe32]
    omega

theorem senc (ivp : Bool) (key iv data : Bytes) : Statement (.senc ivp key iv data) := by
  constructor
  · rfl
  · simp [encode, Cmd.encode, Instr.toCmd, bytesLe32]
    omega

theorem sdec (key data : Bytes) : Statement (.sdec key data) := by
  constructor
  · rfl
  · simp [encode, Cmd.encode, Instr.toCmd, bytesLe32]
    omega

end Sys2Proof.Laws.Encodes
end

