-- ==== Sys2Proof/Laws/Platform.lean ====
section
/-! SUPPORT. What an event of a platform comes to: it is the event of the instance it names, and touches no other. -/

namespace Sys2Proof.Machine

variable {S : SBox} {P Q : Platform} {e e' : State} {j k : Nat} {x : Event}

@[simp] theorem ownEvents_self (j : Nat) (x : Event) (xs : List (Nat × Event)) :
    ownEvents j ((j, x) :: xs) = x :: ownEvents j xs := by simp [ownEvents]

theorem ownEvents_other (h : k ≠ j) (x : Event) (xs : List (Nat × Event)) :
    ownEvents j ((k, x) :: xs) = ownEvents j xs := by simp [ownEvents, h]

theorem platformEvent_none (h : P.engines[j]? = none) : platformEvent S j x P = .next P := by
  cases x <;> simp [platformEvent, platformStep, actOn, h]

theorem platformEvent_some (h : P.engines[j]? = some e) :
    platformEvent S j x P = platformOutcome P j (engineEvent S x e) := by
  cases x <;> simp [platformEvent, platformStep, actOn, engineEvent, platformOutcome, h]

/-- Everything an event that gives a next platform can do. -/
theorem platformEvent_next (h : platformEvent S j x P = .next Q) :
    (P.engines[j]? = none ∧ Q = P) ∨
      ∃ e e', P.engines[j]? = some e ∧ engineEvent S x e = .next e' ∧ Q = ⟨P.engines.set j e'⟩ := by
  cases hj : P.engines[j]? with
  | none =>
      rw [platformEvent_none hj] at h
      cases h
      exact .inl ⟨rfl, rfl⟩
  | some e =>
      rw [platformEvent_some hj] at h
      cases he : engineEvent S x e with
      | next e' =>
          rw [he] at h
          cases h
          exact .inr ⟨e, e', rfl, he, rfl⟩
      | fault f => rw [he] at h; cases h
      | refused r => rw [he] at h; cases h

theorem engines_set_self (h : P.engines[j]? = some e) : (P.engines.set j e')[j]? = some e' := by
  obtain ⟨hlt, _⟩ := List.getElem?_eq_some_iff.mp h
  simp [hlt]

theorem engines_set_other (h : j ≠ k) : (P.engines.set j e')[k]? = P.engines[k]? := by
  simp [h]

theorem engineStep_reset (h : e.resetIn = true) : engineStep S e = .next (applyReset e) := by
  simp [engineStep, h]

theorem engineStep_run (h : e.resetIn = false) : engineStep S e = seqStep S e := by
  simp [engineStep, h]

end Sys2Proof.Machine
end

