-- ==== Sys2Proof/Laws/Step.lean ====
section
/-! SUPPORT. What a step of the machine comes to on a whole frame, in a busy engine, and in one with nothing to do. -/

namespace Sys2Proof.Machine

variable {s : State}

theorem exec_eq_present (i : Instr) (s : State) : exec i s = present Config.sbox i.toCmd s := by
  cases i <;> rfl

theorem step_busy (hr : s.resetIn = false) (hp : s.phase ≠ .idle) : step s = seqStep Config.sbox s := by
  simp [step, hr, runStep, hp]

theorem step_incomplete (hr : s.resetIn = false) (hp : s.phase = .idle) (hs : splitFrame s.rx = none) :
    step s = .next s := by
  simp [step, hr, runStep, hp, fetch, decode, hs]

/-- A whole frame, in a row of the table or not, is presented to the engine, unless `RLEN` cannot answer it. -/
theorem step_of_frame {h : Header} {c : Cmd} {rest : Bytes} (hr : s.resetIn = false) (hp : s.phase = .idle)
    (hs : splitFrame s.rx = some (h, c, rest)) :
    step s = if answerTooLong c then .refused .responseTooLong else present Config.sbox c { s with rx := rest } := by
  obtain ⟨rfl, hf, _⟩ := splitFrame_some hs
  simp only [step, hr, Bool.false_eq_true, if_false, runStep, hp, if_true]
  cases hrow : rowOf c.header.w0 with
  | some op =>
      have hd := decode_of_row hs hrow
      have hc := toCmd_instrOf hf hrow
      unfold fetch
      rw [hd]
      simp only [hc]
      cases answerTooLong c
      · simp [exec_eq_present, hc, hp, hr]
      · simp
  | none =>
      have hd : decode s.rx = .error (rejectReason c.header) := by simp [decode, hs, hrow]
      have hne : rejectReason c.header ≠ .incomplete := by
        unfold rejectReason
        split
        · simp
        · split <;> simp
      have hfetch : fetch s = .badFrame c { s with rx := rest } := by
        unfold fetch
        rw [hd, hs]
        cases e : rejectReason c.header <;> simp_all
      have ha : answerTooLong c = false := by
        simp [answerTooLong, checkCmd_badFrame.mpr (breaksFrame_of_no_row hf hrow)]
      rw [hfetch]
      simp [ha, rejectFrame, hp, hr]

end Sys2Proof.Machine
end

