-- ==== Sys2Proof/Tests/Slice0.lean ====
section
/-! SUPPORT. Tests with results taken from the spec (95_test_vectors.md and the worked examples of its rules), and for
each statement that has hypotheses a witness that meets them. Vectors are under the spec's two test tables (D22). -/

namespace Sys2Proof.Tests

open Sys2Proof Sys2Proof.Machine

-- One theorem after another: checked side by side, these many evaluations ask for more threads than check.sh's limit allows.
set_option Elab.async false

/-! ### Operands and states the tests share -/

/-- The key `00..1f`. -/
def key1 : Bytes := (List.range 32).map (BitVec.ofNat 8)

/-- The IV `0102030405060708`. -/
def iv1 : Bytes := [0x01, 0x02, 0x03, 0x04, 0x05, 0x06, 0x07, 0x08]

/-- The same as a block. -/
def ivBlock : Block := ⟨0x01, 0x02, 0x03, 0x04, 0x05, 0x06, 0x07, 0x08⟩

/-- "Hello, world!", 13 bytes. -/
def hello : Bytes := [0x48, 0x65, 0x6c, 0x6c, 0x6f, 0x2c, 0x20, 0x77, 0x6f, 0x72, 0x6c, 0x64, 0x21]

/-- V5.6 under `SBOX_T`. -/
def helloEnvelope : Bytes :=
  iv1 ++ [0xbf, 0xe0, 0xf8, 0xd1, 0x8c, 0xc3, 0xaa, 0x75, 0x85, 0x96, 0x1d, 0x8b, 0x21]

/-- `a1b2c3d4e5f60718`, the draw of program P4. -/
def drawn : Block := ⟨0xa1, 0xb2, 0xc3, 0xd4, 0xe5, 0xf6, 0x07, 0x18⟩

/-- `n` zero bytes. -/
def zeros (n : Nat) : Bytes := List.replicate n 0

def bencZero : Instr := .benc key1 (zeros 8)
def bdecZero : Instr := .bdec key1 (zeros 8)
def sencHello : Instr := .senc true key1 iv1 hello
def sencNoIv (p : Bytes) : Instr := .senc false key1 [] p
def sdecHello : Instr := .sdec key1 helloEnvelope

/-- An engine after reset to which a frame has been presented. -/
def presented (f : Bytes) : State := hostPresent f State.reset

/-- An engine in the middle of an instruction's command, its subkeys derived. -/
def inPhase (p : Phase) (i : Instr) : State :=
  { accept i.toCmd State.reset with phase := p, k := subkeysOf i.key, dir := dirOf i.toCmd.operation }

/-- The next state of a result, if it has one. -/
def nextOf : Result → Option State
  | .next t => some t
  | .fault _ => none
  | .refused _ => none

theorem eq_next {r : Result} {t : State} (h : nextOf r = some t) : r = .next t := by
  cases r <;> simp_all [nextOf]

theorem has_next {r : Result} (h : (nextOf r).isSome = true) : ∃ t, r = .next t := by
  cases r <;> simp_all [nextOf]

/-- The responses delivered by the next state of a result. -/
def responses (r : Result) : Option (List Response) := (nextOf r).map State.tx

/-! ### Well-formed and conforming instructions -/

theorem test_wellFormed_takes_255_byte_key : (Instr.benc (zeros 255) (zeros 8)).wellFormed = true := by
  decide +kernel

theorem test_keyFits_refuses_256_bytes : (Instr.benc (zeros 256) (zeros 8)).wellFormed = false := by
  decide +kernel

theorem test_ivFits_refuses_256_bytes : (Instr.senc true key1 (zeros 256) hello).wellFormed = false := by
  decide +kernel

theorem zeros_length (n : Nat) : (zeros n).length = n := List.length_replicate

theorem not_wellFormed_of_data {d : Bytes} (h : ¬ d.length < Config.lengthLimit) : (Instr.sdec key1 d).wellFormed = false := by
  simp [Instr.wellFormed, Instr.dataFits, Instr.data, h]

theorem test_dataFits_refuses_2_pow_32_bytes : (Instr.sdec key1 (zeros 4294967296)).wellFormed = false :=
  not_wellFormed_of_data (by rw [zeros_length]; decide)

theorem test_conforming_block_commands :
    bencZero.conforming = true ∧ (Instr.benc key1 (zeros 7)).conforming = false ∧
    bdecZero.conforming = true ∧ (Instr.bdec key1 (zeros 9)).conforming = false := by decide

theorem test_conforming_stray_iv :
    sencHello.conforming = true ∧ (Instr.senc false key1 iv1 hello).conforming = false := by decide

/-! ### Decoding: frames written out from R71 to R73, R78, R86 and the programs of section V8 -/

/-- Program P1, command 1. -/
theorem test_decode_benc :
    decode ([0x01, 0x00, 0x20, 0x00, 0x08, 0x00, 0x00, 0x00] ++ key1
      ++ [0x01, 0x23, 0x45, 0x67, 0x89, 0xab, 0xcd, 0xef])
      = .ok (.benc key1 [0x01, 0x23, 0x45, 0x67, 0x89, 0xab, 0xcd, 0xef], []) := by decide +kernel

/-- Program P1, command 2, under `SBOX_ID`; the byte after the frame is left over. -/
theorem test_decode_bdec :
    decode ([0x02, 0x00, 0x20, 0x00, 0x08, 0x00, 0x00, 0x00] ++ key1
      ++ [0xf7, 0xef, 0xc4, 0xa1, 0x60, 0x18, 0xe8, 0x4e, 0xff])
      = .ok (.bdec key1 [0xf7, 0xef, 0xc4, 0xa1, 0x60, 0x18, 0xe8, 0x4e], [0xff]) := by decide +kernel

/-- Program P2, command 1. -/
theorem test_decode_senc :
    decode ([0x03, 0x01, 0x20, 0x08, 0x0d, 0x00, 0x00, 0x00] ++ key1 ++ iv1 ++ hello) = .ok (sencHello, []) := by
  decide +kernel

/-- Program P4, command 1: no IV. -/
theorem test_decode_senc_without_iv :
    decode ([0x03, 0x00, 0x20, 0x00, 0x00, 0x00, 0x00, 0x00] ++ key1) = .ok (sencNoIv [], []) := by decide +kernel

/-- Program P2, command 2. -/
theorem test_decode_sdec :
    decode ([0x04, 0x00, 0x20, 0x00, 0x15, 0x00, 0x00, 0x00] ++ key1 ++ helloEnvelope) = .ok (sdecHello, []) := by
  decide +kernel

/-- The decoder check at the end of section V6. -/
theorem test_rows_of_V6 :
    [0x00200001, 0x00200002, 0x08200103, 0x00200003, 0x00200004, 0x001F0003, 0x00210004].map rowOf
      = [some .benc, some .bdec, some .senc, some .senc, some .sdec, some .senc, some .sdec] ∧
    [0x00200101, 0x00200201, 0x00200005, 0x00200000, 0x08200104].map rowOf = [none, none, none, none, none] := by
  decide +kernel

/-- V6.12, V6.14, V6.15, and a frame one byte short (R75). -/
theorem test_decode_rejects_by_name :
    decode ([0x00, 0x00, 0x20, 0x00, 0x00, 0x00, 0x00, 0x00] ++ key1) = .error (.illegalOpcode 0x00) ∧
    decode ([0x01, 0x02, 0x20, 0x00, 0x08, 0x00, 0x00, 0x00] ++ key1 ++ zeros 8) = .error .reservedFlag ∧
    decode ([0x01, 0x01, 0x20, 0x08, 0x08, 0x00, 0x00, 0x00] ++ key1 ++ iv1 ++ zeros 8) = .error .ivNotTaken ∧
    decode ([0x01, 0x00, 0x20, 0x00, 0x08, 0x00, 0x00, 0x00] ++ key1 ++ zeros 7) = .error .incomplete := by
  decide +kernel

/-- The table's own numbers: bit 0 is the least significant bit of word 0, operand bytes zero. -/
theorem test_decode_table_words :
    decodeTableWord 32 0x00000001 = some (.benc [] []) ∧ decodeTableWord 32 0x00200002 = some (.bdec (zeros 32) []) ∧
    decodeTableWord 32 0x08200103 = some (.senc true (zeros 32) (zeros 8) []) ∧
    decodeTableWord 32 0x00200004 = some (.sdec (zeros 32) []) ∧ decodeTableWord 32 0x00000005 = none := by
  decide +kernel

/-- R84: R86's SENC in text, with the 32 bytes `00..1f` written out by the writer, and a response. -/
theorem test_text :
    commandText (.senc true [0x0f] [] [0xa5]) =
      ['S', 'E', 'N', 'C', ' ', 'k', 'e', 'y', '=', '0', 'f', ' ', 'i', 'v', '=', ' ', 'd', 'a', 't', 'a', '=', 'a', '5'] ∧
    responseText ⟨.ok, [0x01]⟩ = ['-', '>', ' ', 'O', 'K', ' ', '0', '1'] := by decide +kernel

/-! ### The functions and the commands, by the vectors of sections V3 to V6 -/

/-- V3.1 and V3.2: nibble order, and the largest operands. -/
theorem test_sub_and_round_function :
    sub tableT 0x0F0F0F0F = 0x6E08A24C ∧ roundF tableT 0xFFFFFFFF 0xFFFFFFFF = 0xC297B8F5 ∧
    roundF tableT 0xDEADBEEF 0x01234567 = 0x955EFBF0 := by decide +kernel

/-- R130: packing the halves unswapped in both directions does not give the block back. -/
theorem test_unswapped_packing_fails :
    let core := fun (idx : Nat → Fin 8) (b : Block) =>
      let p := rounds tableT (subkeysOf key1) idx (firstHalf b, secondHalf b) 32
      packHalves p.1 p.2
    blockBytes (core decIdx (core encIdx (blockOf (zeros 8)))) = [0xae, 0x3d, 0x30, 0x24, 0x3d, 0x69, 0x96, 0xf8] := by
  decide +kernel

/-- V4.2: the first round under `SBOX_T`. -/
theorem test_first_round :
    (nextOf (seqStep tableT (inPhase .round bencZero))).map (fun t => (t.n1, t.n2, t.rnd.val))
      = some (0x00000000, 0x3D620B10, 1) := by decide +kernel

/-- V4.1 and V4.2. -/
theorem test_benc_vectors :
    responses (present tableId bencZero.toCmd State.reset)
      = some [⟨.ok, [0xc3, 0x10, 0xbf, 0x05, 0x06, 0x8d, 0xd6, 0x70]⟩] ∧
    responses (present tableT bencZero.toCmd State.reset)
      = some [⟨.ok, [0x4e, 0xc9, 0xa5, 0x9d, 0xf1, 0xe5, 0xad, 0x3a]⟩] := by decide +kernel

/-- V4.3: BDEC of a block BENC did not produce. -/
theorem test_bdec_vectors :
    responses (present tableId bdecZero.toCmd State.reset)
      = some [⟨.ok, [0x5b, 0x16, 0x6f, 0x2b, 0x9b, 0xbe, 0x41, 0xb7]⟩] ∧
    responses (present tableT bdecZero.toCmd State.reset)
      = some [⟨.ok, [0xdc, 0x1e, 0x9b, 0x67, 0x58, 0x1b, 0xac, 0x6f]⟩] := by decide +kernel

/-- V5.6: two blocks, the last of 5 bytes. -/
theorem test_senc_vector :
    responses (present tableT sencHello.toCmd State.reset) = some [⟨.ok, helloEnvelope⟩] := by decide +kernel

/-- Program P4, command 2, under `SBOX_T`: the draw is used, and used up. -/
theorem test_senc_drawn_vector :
    (nextOf (present tableT (sencNoIv (zeros 3)).toCmd (entropyAnswer drawn State.reset))).map
      (fun t => (t.tx, t.draws)) = some ([⟨.ok, blockBytes drawn ++ [0x30, 0x1c, 0xf1]⟩], []) := by decide +kernel

/-- V5.22 on V5.6, and V5.20. -/
theorem test_sdec_vectors :
    responses (present tableT sdecHello.toCmd State.reset) = some [⟨.ok, hello⟩] ∧
    responses (present tableT (Instr.sdec key1 iv1).toCmd State.reset) = some [⟨.ok, []⟩] := by decide +kernel

/-! ### One step of the machine after reset -/

/-- Program P4, command 1: an empty plaintext needs no S-box entry, so the engine's own table is not asked. -/
theorem test_step_runs_a_whole_command :
    responses (step (entropyAnswer drawn (presented ([0x03, 0x00, 0x20, 0x00, 0x00, 0x00, 0x00, 0x00] ++ key1))))
      = some [⟨.ok, blockBytes drawn⟩] := by decide +kernel

/-- V6.1, V6.7, V6.10, V6.17 and V6.20: one fault, the first in R162's order. -/
theorem test_step_answers_faults :
    responses (step (presented ([0x01, 0x00, 0x1f, 0x00, 0x08, 0x00, 0x00, 0x00] ++ zeros 39)))
      = some [⟨.fault .invalidKeyLength, []⟩] ∧
    responses (step (presented ([0x03, 0x01, 0x20, 0x00, 0x01, 0x00, 0x00, 0x00] ++ key1 ++ [0x41])))
      = some [⟨.fault .invalidIVLength, []⟩] ∧
    responses (step (presented ([0x03, 0x01, 0x1f, 0x07, 0x01, 0x00, 0x00, 0x00] ++ zeros 39)))
      = some [⟨.fault .invalidKeyLength, []⟩] ∧
    responses (step (presented ([0x03, 0x00, 0x20, 0x08, 0x01, 0x00, 0x00, 0x00] ++ zeros 41)))
      = some [⟨.fault .badFrame, []⟩] ∧
    responses (step (presented ([0x01, 0x00, 0x1f, 0x00, 0x07, 0x00, 0x00, 0x00] ++ zeros 38)))
      = some [⟨.fault .badFrame, []⟩] := by decide +kernel

/-- V6.13: an illegal opcode, its key consumed. -/
theorem test_step_answers_illegal_opcode :
    (nextOf (step (presented ([0x05, 0x00, 0x20, 0x00, 0x00, 0x00, 0x00, 0x00] ++ key1 ++ [0x99])))).map
      (fun t => (t.tx, t.rx, t.phase)) = some ([⟨.fault .badFrame, []⟩], [0x99], .idle) := by decide +kernel

/-- V6.21: the entropy source is silent. -/
theorem test_step_waits_for_the_entropy_source :
    (nextOf (step (presented ([0x03, 0x00, 0x20, 0x00, 0x01, 0x00, 0x00, 0x00] ++ key1 ++ [0x41])))).map
      (fun t => (t.tx, t.phase)) = some ([], .ivsel) := by decide +kernel

/-- A table word placed where the next step fetches is run by it: SENC with `IVP = 1` and a 31-byte key (`071F0103`). -/
theorem test_withFetchWord :
    responses (step (State.reset.withFetchWord 32 0x071F0103)) = some [⟨.fault .invalidKeyLength, []⟩] := by
  decide +kernel

/-! ### For each statement with hypotheses, a case that meets them all -/

theorem witness_DecodeInvertsEncode : sencHello.wellFormed = true ∧ (Instr.sdec (zeros 255) []).wellFormed = true := by
  decide +kernel

theorem witness_EncodeInvertsDecode : decode (encode sencHello ++ [0x99]) = .ok (sencHello, [0x99]) := by
  decide +kernel

theorem witness_RowsAreExclusive :
    (⟨.senc, 0x0000FEFF, 0x00000003⟩ : OpRow) ∈ opcodeRows ∧
      (⟨.senc, 0x0000FEFF, 0x00000003⟩ : OpRow).hits 0xFFFF0103 = true := by decide +kernel

theorem witness_FrameLengthComesFromItsHeader : (splitFrame (encode sencHello ++ [0x99])).isSome = true := by
  decide +kernel

theorem witness_ResponseFramesReadBack :
    (zeros 4294967295).length < 4294967296 ∧ 4294967296 ≤ (zeros 4294967296).length := by
  rw [zeros_length, zeros_length]
  decide

theorem witness_TextOfACommandReadsBack :
    (sencHello.ivp = true ∨ sencHello.ivField = []) ∧ (bdecZero.ivp = true ∨ bdecZero.ivField = []) := by decide

theorem witness_RoundFunctionAddsSubstitutesRotates : (0 < 32) ∧ (20 < 32) ∧ (21 < 32) ∧ (31 < 32) := by decide

theorem witness_KeyScheduleSlicesTheKey :
    key1.length = 32 ∧ (zeros 31).length ≠ 32 ∧ (zeros 33).length ≠ 32 ∧ keySchedule key1 = keySchedule key1 := by
  decide

theorem witness_KeyOrdersMirrorEachOther : (23 < 24) ∧ (24 ≤ 24 ∧ 24 < 32) ∧ (7 < 8) ∧ (8 ≤ 8 ∧ 8 < 32) ∧ (31 < 32) := by
  decide

theorem witness_BlockTransformRoundTrips : key1.length = 32 := by decide

theorem witness_StreamRoundTrips :
    key1.length = 32 ∧ sencResponse tableT key1 (blockBytes ivBlock) hello = ⟨.ok, helloEnvelope⟩ ∧
    sencDrawnResponse tableT key1 ivBlock hello = ⟨.ok, helloEnvelope⟩ := by decide +kernel

theorem witness_StreamLengthsAreKept :
    cfbEnc tableT key1 ivBlock hello = .ok helloEnvelope ∧ 8 ≤ iv1.length ∧ cfbDec tableT key1 iv1 = .ok [] := by
  decide +kernel

theorem witness_CommonPrefixesGiveCommonEnvelopes :
    1 ≤ [(0x48 : Byte)].length ∧ 1 ≤ hello.length ∧ [(0x48 : Byte)].take 1 = hello.take 1 ∧
    cfbEnc tableT key1 ivBlock [0x48] = .ok (iv1 ++ [0xbf]) ∧ cfbEnc tableT key1 ivBlock hello = .ok helloEnvelope := by
  decide +kernel

/-- Another IV before the same ciphertext: block 1 (the second) agrees. -/
theorem witness_DecryptionSynchronisesItself :
    let other := zeros 8 ++ helloEnvelope.drop 8
    helloEnvelope.length = other.length ∧ 8 ≤ helloEnvelope.length ∧
    (helloEnvelope.drop (8 * 1)).take 16 = (other.drop (8 * 1)).take 16 ∧
    cfbDec tableT key1 helloEnvelope = .ok hello ∧ (cfbDec tableT key1 other).toOption.isSome = true := by
  decide +kernel

theorem witness_AcceptLatchesAWholeCommand :
    (presented (encode sencHello)).phase = .idle ∧ (splitFrame (encode sencHello)).isSome = true ∧
    answerTooLong sencHello.toCmd = false ∧ splitFrame State.reset.rx = none ∧
    (inPhase .check sencHello).phase ≠ .idle ∧ (nextOf (seqStep tableT (inPhase .check sencHello))).isSome = true := by
  decide +kernel

/-- V6.20, V6.1, V6.8 and a valid command. -/
theorem witness_CheckReportsTheFirstFault :
    (inPhase .check bencZero).phase = .check ∧
    BreaksFrame (Instr.benc (zeros 31) (zeros 7)).toCmd ∧
    (¬ BreaksFrame (Instr.benc (zeros 31) (zeros 8)).toCmd ∧ (zeros 31).length ≠ 32) ∧
    (¬ BreaksFrame (Instr.sdec key1 (zeros 7)).toCmd ∧ key1.length = 32 ∧ BreaksIv (Instr.sdec key1 (zeros 7)).toCmd) ∧
    (¬ BreaksFrame (Instr.sdec key1 (zeros 8)).toCmd ∧ ¬ BreaksIv (Instr.sdec key1 (zeros 8)).toCmd) := by
  simp [BreaksFrame, BreaksIv, inPhase, Instr.toCmd, Cmd.operation, opOfCode, Op.code, Instr.op, Instr.ivp, Instr.ivField,
    Instr.data, zeros_length, key1]

theorem witness_RaisingAFaultWritesOnlyThePhase :
    (inPhase .check (.sdec key1 (zeros 7))).phase = .check ∧
    checkCmd (inPhase .check (.sdec key1 (zeros 7))).cmd = some .invalidIVLength := by decide +kernel

theorem witness_KexpDerivesTheSubkeys :
    let s := inPhase .kexp sencHello
    s.phase = .kexp ∧ s.cmd.operation = some .senc ∧ s.cmd.key.length = 32 ∧
    (inPhase .next sencHello).phase ≠ .kexp ∧ (nextOf (seqStep tableT (inPhase .next sencHello))).isSome = true := by
  decide +kernel

theorem witness_IvselChoosesTheIv :
    let e := inPhase .ivsel sencHello
    let d := entropyAnswer drawn (inPhase .ivsel (sencNoIv hello))
    let c := inPhase .ivsel sdecHello
    (e.phase = .ivsel ∧ e.cmd.operation = some .senc ∧ e.cmd.iv = some (blockBytes ivBlock)) ∧
    (d.phase = .ivsel ∧ d.cmd.operation = some .senc ∧ d.cmd.iv = none ∧ d.draws = drawn :: []) ∧
    (c.phase = .ivsel ∧ c.cmd.operation = some .sdec ∧ c.cmd.data = blockBytes ivBlock ++ helloEnvelope.drop 8) ∧
    (nextOf (seqStep tableT d)).map State.draws = some [] := by decide +kernel

theorem witness_NextWritesOnlyThePhase :
    let e := { inPhase .next sencHello with pos := 13 }
    let c := { inPhase .next sdecHello with pos := 8 }
    (e.phase = .next ∧ e.cmd.operation = some .senc ∧ hello = e.cmd.data ∧ e.pos = hello.length) ∧
    (c.phase = .next ∧ c.cmd.operation = some .sdec ∧ helloEnvelope.drop 8 = c.cmd.data.drop 8 ∧
      c.pos ≠ (helloEnvelope.drop 8).length) := by decide +kernel

theorem witness_LoadTakesItsSource :
    ((inPhase .load bdecZero).phase = .load ∧ (inPhase .load bdecZero).cmd.operation = some .bdec ∧
      (inPhase .load bdecZero).cmd.data = blockBytes (blockOf (zeros 8))) ∧
    ((inPhase .load sdecHello).phase = .load ∧ (inPhase .load sdecHello).cmd.operation = some .sdec) := by
  decide +kernel

theorem witness_RoundUpdatesThePair :
    let s := inPhase .round bdecZero
    s.phase = .round ∧ s.rnd.val = 0 ∧ ({ s with rnd := 31 } : State).rnd.val < 32 := by decide +kernel

theorem witness_PackSwapsTheHalves :
    ((inPhase .pack bencZero).phase = .pack ∧ (inPhase .pack bencZero).cmd.operation = some .benc) ∧
    ((inPhase .pack sencHello).phase = .pack ∧ (inPhase .pack sencHello).cmd.operation = some .senc) ∧
    ((inPhase .load bdecZero).phase = .load ∧ (inPhase .load bdecZero).cmd.operation = some .bdec ∧
      (inPhase .load bdecZero).cmd.data = blockBytes (blockOf (zeros 8))) ∧
    ((inPhase .load sdecHello).cmd.operation = some .sdec ∧
      (inPhase .load sdecHello).gamma = blockOf (zeros 8)) := by decide +kernel

/-- The first block of 8 bytes and the last of 5, in both directions. -/
theorem witness_MixMasksAndChains :
    let e := { inPhase .mix sencHello with pos := 8 }
    let c := inPhase .mix sdecHello
    (e.phase = .mix ∧ e.cmd.operation = some .senc ∧ e.pos < e.cmd.data.length - 0 ∧
      min 8 (e.cmd.data.length - 0 - e.pos) = 5) ∧
    (c.phase = .mix ∧ c.cmd.operation = some .sdec ∧ c.pos < c.cmd.data.length - 8 ∧
      min 8 (c.cmd.data.length - 8 - c.pos) = 8) := by decide +kernel

theorem witness_DoneDeliversTheResponse : (inPhase .done bencZero).phase = .done := by decide

/-- The two steps that leave the engine where it is, and one that moves it. -/
theorem witness_PhasesFollowTheTable :
    (nextOf (seqStep tableT State.reset) = some State.reset) ∧
    (nextOf (seqStep tableT (inPhase .ivsel (sencNoIv hello))) = some (inPhase .ivsel (sencNoIv hello))) ∧
    ((nextOf (seqStep tableT (inPhase .pack sencHello))).map State.phase = some .mix) := by decide +kernel

theorem witness_OneResponseEndsACommand :
    ((nextOf (seqStep tableT (inPhase .check (.sdec key1 [])))).map State.tx
      = some [⟨.fault .invalidIVLength, []⟩]) ∧
    ((nextOf (seqStep tableT { inPhase .done bencZero with resp := iv1 })).map State.tx = some [⟨.ok, iv1⟩]) ∧
    ((nextOf (seqStep tableT (inPhase .load bencZero))).map State.tx = some []) := by decide +kernel

theorem witness_LatchesKeepTheCommandInProgress :
    (inPhase .check bdecZero).phase ≠ .idle ∧
    ((nextOf (seqStep tableT { inPhase .check bdecZero with resp := iv1 })).map State.resp = some []) ∧
    ((nextOf (seqStep tableT (inPhase .ivsel sencHello))).map State.resp = some iv1) := by decide +kernel

theorem witness_BlockCommandsLeaveTheChainAlone :
    (inPhase .pack bdecZero).cmd.operation = some .bdec ∧
    (nextOf (seqStep tableT (inPhase .pack bdecZero))).isSome = true := by decide +kernel

/-- A SENC without IV, its draw answered: the frame is whole, its answer fits, CHECK passes it. -/
theorem witness_CommandsTakeTheirStepCounts :
    let s := entropyAnswer drawn (presented (encode (sencNoIv hello)))
    s.phase = .idle ∧ (splitFrame s.rx).map (fun x => x.2) = some ((sencNoIv hello).toCmd, []) ∧
    answerTooLong (sencNoIv hello).toCmd = false ∧ checkCmd (sencNoIv hello).toCmd = none ∧ s.draws ≠ [] := by
  decide +kernel

theorem witness_FaultingCommandsTakeTwoSteps :
    let s := presented (encode (.sdec key1 (zeros 7)))
    s.phase = .idle ∧ (splitFrame s.rx).map (fun x => x.2) = some ((Instr.sdec key1 (zeros 7)).toCmd, []) ∧
    checkCmd (Instr.sdec key1 (zeros 7)).toCmd = some .invalidIVLength := by decide +kernel

theorem witness_SilentEntropySourceHoldsTheCommand : AwaitsDraw (inPhase .ivsel (sencNoIv hello)) := by
  refine ⟨?_, ?_, ?_, ?_⟩ <;> decide

/-- BENC of the zero block after its first round (V4.2). -/
def afterFirstRound : State := { inPhase .round bencZero with n2 := 0x3D620B10, rnd := 1 }

theorem seqInv_afterFirstRound : SeqInv tableT afterFirstRound := by
  refine ⟨⟨?_, ?_⟩, ?_, ⟨fun _ => ?_, fun h => absurd h ?_⟩, ?_, ?_⟩
  case refine_5 => unfold Streaming; decide
  all_goals first
    | decide +kernel
    | rfl

theorem seqInv_ivsel : SeqInv tableT (inPhase .ivsel sdecHello) := by
  refine ⟨⟨?_, ?_⟩, ?_, Or.inr ?_, ?_⟩ <;> first
    | decide +kernel
    | rfl

/-- In IVSEL, and in the middle of a block. -/
theorem witness_SequencerKeepsTheInvariant :
    (SeqInv tableT (inPhase .ivsel sdecHello) ∧ ∃ t, seqStep tableT (inPhase .ivsel sdecHello) = .next t) ∧
    (SeqInv tableT afterFirstRound ∧ ∃ t, seqStep tableT afterFirstRound = .next t) :=
  ⟨⟨seqInv_ivsel, has_next (by decide +kernel)⟩, seqInv_afterFirstRound, has_next (by decide +kernel)⟩

theorem seqInv_kexp : SeqInv Config.sbox (inPhase .kexp sencHello) := by
  refine ⟨⟨?_, ?_⟩, ?_⟩ <;> decide +kernel

theorem witness_StepKeepsTheInvariant :
    SeqInv Config.sbox (inPhase .kexp sencHello) ∧ ∃ t, step (inPhase .kexp sencHello) = .next t :=
  ⟨seqInv_kexp, has_next (by decide +kernel)⟩

theorem witness_BencAnswersTheEncryptedBlock : State.reset.phase = .idle ∧ key1.length = 32 := by decide

theorem witness_BdecAnswersTheDecryptedBlock : State.reset.phase = .idle ∧ (zeros 32).length = 32 := by decide

theorem witness_SencAnswersTheEnvelope : State.reset.phase = .idle ∧ key1.length = 32 := by decide

theorem witness_SencWithoutIvUsesOneDraw :
    let s := entropyAnswer drawn State.reset
    s.phase = .idle ∧ key1.length = 32 ∧ s.draws = drawn :: [] := by decide

theorem witness_SencWithoutDrawWaits :
    State.reset.phase = .idle ∧ State.reset.resetIn = false ∧ key1.length = 32 ∧ State.reset.draws = [] := by decide

theorem witness_SdecAnswersThePlaintext :
    State.reset.phase = .idle ∧ key1.length = 32 ∧ 8 ≤ iv1.length ∧ 8 ≤ helloEnvelope.length := by decide

/-- V6.17, V6.4 and V6.5. -/
theorem witness_FaultingCommandsHaveNoOtherEffect :
    State.reset.phase = .idle ∧ BreaksFrame (Instr.senc false key1 iv1 hello).toCmd ∧
    (¬ BreaksFrame (Instr.sdec (zeros 33) iv1).toCmd ∧ (Instr.sdec (zeros 33) iv1).key.length ≠ 32) ∧
    (¬ BreaksFrame (Instr.senc true key1 (zeros 7) hello).toCmd ∧ (Instr.senc true key1 (zeros 7) hello).key.length = 32 ∧
      BreaksIv (Instr.senc true key1 (zeros 7) hello).toCmd) := by
  simp [BreaksFrame, BreaksIv, Instr.toCmd, Cmd.operation, Cmd.iv, opOfCode, Op.code, Instr.op, Instr.ivp, Instr.ivField,
    Instr.data, Instr.key, zeros_length, key1, iv1, State.reset]

/-- Two idle engines whose registers differ. -/
theorem witness_ResponsesDoNotDependOnRegisters :
    let s' := { State.reset with k := subkeysOf key1, gamma := drawn, n1 := 1, rnd := 7, pos := 5 }
    State.reset.phase = .idle ∧ s'.phase = .idle ∧ s'.tx = State.reset.tx ∧ s'.draws = State.reset.draws := by decide

theorem witness_FaultsLeaveNothingBehind :
    State.reset.phase = .idle ∧ (∃ f, checkCmd (Instr.sdec key1 []).toCmd = some f) ∧
    ∃ t, exec (.sdec key1 []) State.reset = .next t :=
  ⟨rfl, ⟨.invalidIVLength, by decide +kernel⟩, has_next (by decide +kernel)⟩

theorem witness_BusyEngineMakesACommandWait : (inPhase .next sencHello).phase ≠ .idle := by decide

theorem witness_StepRunsTheDecodedInstruction :
    let s := presented (encode bencZero ++ [0x99])
    s.resetIn = false ∧ s.phase = .idle ∧ decode s.rx = .ok (bencZero, [0x99]) ∧
    answerTooLong bencZero.toCmd = false := by decide +kernel

theorem witness_StepAnswersIllegalFramesBadFrame :
    let s := presented ([0x05, 0x00, 0x20, 0x00, 0x00, 0x00, 0x00, 0x00] ++ key1)
    s.resetIn = false ∧ s.phase = .idle ∧ (splitFrame s.rx).map (fun x => rowOf x.1.w0) = some none := by
  decide +kernel

theorem witness_StepWaitsForAWholeFrame :
    let s := presented ([0x01, 0x00, 0x20, 0x00, 0x08, 0x00, 0x00, 0x00] ++ key1 ++ zeros 7)
    s.resetIn = false ∧ s.phase = .idle ∧ splitFrame s.rx = none := by decide +kernel

/-- A frame of `2^32 - 8` bytes of plaintext is whole, and its SENC valid. -/
theorem long_senc {p : Bytes} (hp : p.length = 4294967288) :
    decode (presented (encode (.senc true key1 iv1 p) ++ [])).rx = .ok (.senc true key1 iv1 p, []) ∧
    checkCmd (Instr.senc true key1 iv1 p).toCmd = none := by
  have hw : (Instr.senc true key1 iv1 p).wellFormed = true := by
    simp [Instr.wellFormed, Instr.keyFits, Instr.ivFits, Instr.dataFits, Instr.key, Instr.ivField, Instr.data, key1, iv1, hp,
      Config.lengthLimit]
  have hd := decode_of_row (splitFrame_encode (toCmd_fits hw) []) (rowOf_toCmd hw)
  rw [instrOf_toCmd] at hd
  exact ⟨hd, rfl⟩

/-- The shortest plaintext whose envelope does not fit `RLEN`. -/
theorem witness_StepRefusesWhatRlenCannotAnswer :
    let p := zeros 4294967288
    let s := presented (encode (.senc true key1 iv1 p) ++ [])
    s.resetIn = false ∧ s.phase = .idle ∧ decode s.rx = .ok (.senc true key1 iv1 p, []) ∧
    checkCmd (Instr.senc true key1 iv1 p).toCmd = none ∧ 4294967296 ≤ 8 + p.length :=
  have h := long_senc (zeros_length 4294967288)
  ⟨rfl, rfl, h.1, h.2, by rw [zeros_length]⟩

theorem step_refuses_long {p : Bytes} (hp : p.length = 4294967288) :
    step (presented (encode (.senc true key1 iv1 p) ++ [])) = .refused .responseTooLong := by
  obtain ⟨hd, hc⟩ := long_senc hp
  rw [step_of_frame rfl rfl (decode_ok hd).2, if_pos (answerTooLong_senc hc (by rw [hp]; decide))]

/-- Both clauses: a state that meets the invariant, and one of which the step is refused. -/
theorem witness_InvariantRulesOutFaults :
    SeqInv Config.sbox (inPhase .kexp sencHello) ∧
    (SeqInv Config.sbox (presented (encode (.senc true key1 iv1 (zeros 4294967288)) ++ [])) ∧
      step (presented (encode (.senc true key1 iv1 (zeros 4294967288)) ++ [])) = .refused .responseTooLong) :=
  ⟨seqInv_kexp, trivial, step_refuses_long (zeros_length _)⟩

theorem witness_StepContinuesTheCommandInProgress :
    (inPhase .round bencZero).resetIn = false ∧ (inPhase .round bencZero).phase ≠ .idle := by decide

/-- Reset in the middle of a command, and no reset there. -/
theorem witness_ResetAbandonsTheCommand :
    (assertReset (inPhase .mix sencHello)).resetIn = true ∧ (inPhase .mix sencHello).resetIn = false := by decide

theorem witness_StepAgreesWithTheSequencer :
    let s := presented (encode sencHello)
    s.resetIn = false ∧ s.phase = .idle ∧ (splitFrame s.rx).isSome = true := by decide +kernel

/-- The host presents a command to the first of two instances, which takes two steps of it; between them the entropy
source answers the second, and an event names an instance that is not there. -/
def interleaved : List (Nat × Event) :=
  [(0, .act (.present (encode bencZero))), (0, .step), (1, .act (.answer drawn)), (5, .step), (0, .step)]

theorem test_interleaved_events :
    platformRun tableT interleaved ⟨[State.reset, State.reset]⟩
      = .next ⟨[{ State.reset with cmd := bencZero.toCmd, phase := .kexp }, { State.reset with draws := [drawn] }]⟩ := by
  rfl

/-- Both clauses: the platform gets through the schedule, and so does each instance alone. -/
theorem witness_EnginesAreIsolated :
    (∃ Q, platformRun tableT interleaved ⟨[State.reset, State.reset]⟩ = .next Q) ∧
    ∀ (j : Nat) (e : State), [State.reset, State.reset][j]? = some e →
      ∃ e', engineRun tableT (ownEvents j interleaved) e = .next e' := by
  refine ⟨⟨_, test_interleaved_events⟩, fun j e he => ?_⟩
  match j, he with
  | 0, he => cases he; exact ⟨_, rfl⟩
  | 1, he => cases he; exact ⟨_, rfl⟩
  | n + 2, he => simp at he

end Sys2Proof.Tests
end

/-! ## The invariant, the two levels of steps, and isolation

Each step of the sequencer keeps the invariant, phase by phase; a step of the machine on a whole frame is a run of the
sequencer of bounded length, so it keeps the invariant too (R10); and an engine of a platform does what its own events
make of it (R58). -/

namespace Sys2Proof.Machine

section Invariant

variable {S : SBox} {s t : State} {op : Op}

/-! ### What the invariant's parts say of a command of a known row -/

theorem checked_iff : Checked s ↔ ∃ op, Valid s.cmd op ∧ s.dir = dirOf (some op) := by
  constructor
  · rintro ⟨hc, hd⟩
    obtain ⟨op, v⟩ := checkCmd_none.mp hc
    exact ⟨op, v, by rw [hd, v.operation]⟩
  · rintro ⟨op, v, hd⟩
    exact ⟨checkCmd_none.mpr ⟨op, v⟩, by rw [hd, v.operation]⟩

theorem streaming_iff (ho : s.cmd.operation = some op) : Streaming s ↔ op.isBlock = false := by
  cases op <;> simp [Streaming, ho, Op.isBlock]

theorem commandStream_eq {c : Cmd} (ho : c.operation = some op) (hb : op.isBlock = false) :
    commandStream c = streamOf op c := by
  cases op <;> simp_all [commandStream, Op.isBlock]

/-- A streaming command runs the block transform in the encrypt order (R150). -/
theorem dirOf_streaming (hb : op.isBlock = false) : dirOf (some op) = .encrypt := by
  cases op <;> simp_all [dirOf, Op.isBlock]

theorem currentSource_block (ho : s.cmd.operation = some op) (hb : op.isBlock = true) :
    currentSource s = blockOf s.cmd.data := by
  cases op <;> simp_all [currentSource, Op.isBlock]

theorem currentSource_stream (ho : s.cmd.operation = some op) (hb : op.isBlock = false) :
    currentSource s = s.gamma := by
  cases op <;> simp_all [currentSource, Op.isBlock]

/-! ### Both directions of the stream at once -/

/-- The rest of a stream in the direction of its row, from a chaining value: `cfbEncFrom` for SENC, `cfbDecFrom` for
SDEC (R141, R142). -/
def cfbFrom (S : SBox) (op : Op) (K : Subkeys) (gamma : Block) (bs : List Bytes) : Bytes :=
  if op = .senc then cfbEncFrom S K gamma bs else cfbDecFrom S K gamma bs

@[simp] theorem cfbFrom_nil (K : Subkeys) (gamma : Block) : cfbFrom S op K gamma [] = [] := by
  simp [cfbFrom, cfbEncFrom, cfbDecFrom]

/-- The first block of a stream adds what MIX appends, and the rest goes on from the chaining value MIX leaves
(R146). -/
theorem cfbFrom_cons (K : Subkeys) (gamma : Block) (b : Bytes) (bs : List Bytes) :
    cfbFrom S op K gamma (b :: bs) =
      xorBytes b (blockBytes (blockCore S K encIdx gamma)) ++
        cfbFrom S op K (mixed op b (xorBytes b (blockBytes (blockCore S K encIdx gamma)))) bs := by
  by_cases ho : op = .senc
  · simp [cfbFrom, cfbEncFrom, mixed, ho]
  · simp [cfbFrom, cfbDecFrom, mixed, ho]

/-- `out` is the whole response payload of a streaming command under subkeys `K`; for a SENC without IV, that of some
drawn one (R147). -/
def StreamAnswer (S : SBox) (K : Subkeys) (c : Cmd) (out : Bytes) : Prop :=
  match c.operation with
  | some .senc =>
      ∃ iv, IvAdmitted c iv ∧ out = blockBytes iv ++ cfbFrom S .senc K iv (streamBlocks (commandStream c))
  | some .sdec => out = cfbFrom S .sdec K (blockOf c.data) (streamBlocks (commandStream c))
  | _ => False

theorem streamProgress_iff (ho : s.cmd.operation = some op) :
    StreamProgress S s ↔
      StreamAnswer S s.k s.cmd
        (s.resp ++ cfbFrom S op s.k s.gamma (streamBlocks ((commandStream s.cmd).drop s.pos))) := by
  cases op <;> simp [StreamProgress, StreamAnswer, ho, cfbFrom]

theorem answered_stream_iff (ho : s.cmd.operation = some op) (hb : op.isBlock = false) :
    Answered S s ↔ StreamAnswer S s.k s.cmd s.resp := by
  cases op <;> simp_all [Answered, StreamAnswer, cfbFrom, Op.isBlock]

theorem answered_block_iff (ho : s.cmd.operation = some op) (hb : op.isBlock = true) :
    Answered S s ↔ s.resp = blockBytes (blockCore S s.k (idxOf (dirOf (some op))) (blockOf s.cmd.data)) := by
  cases op <;> simp_all [Answered, Op.isBlock, dirOf, idxOf]

/-! ### The step of each phase keeps the invariant -/

theorem seqInv_of_idle (h : s.phase = .idle) : SeqInv S s := by simp [SeqInv, h]

theorem acceptStep_keeps_seqInv (hp : s.phase = .idle) (h : acceptStep s = .next t) : SeqInv S t := by
  unfold acceptStep at h
  split at h
  · cases h
    exact seqInv_of_idle hp
  · split at h
    · cases h
    · cases h
      simp [SeqInv]

theorem checkStep_keeps_seqInv (h : checkStep s = .next t) : SeqInv S t := by
  unfold checkStep at h
  split at h
  · cases h
    exact seqInv_of_idle rfl
  · next hc =>
      cases h
      exact ⟨⟨hc, rfl⟩, rfl⟩

theorem kexp_keeps_seqInv (hp : s.phase = .kexp) (hs : SeqInv S s) (h : seqStep S s = .next t) : SeqInv S t := by
  simp only [SeqInv, hp] at hs
  obtain ⟨hc, hresp⟩ := hs
  obtain ⟨op, v, -⟩ := checked_iff.mp hc
  rw [kexp_step hp v] at h
  cases h
  cases hb : op.isBlock with
  | true =>
      refine ⟨hc, rfl, fun _ => hresp, fun hst => ?_⟩
      rw [(streaming_iff v.operation).mp hst] at hb
      cases hb
  | false => exact ⟨hc, rfl, (streaming_iff v.operation).mpr hb, hresp⟩

/-- Before the first block nothing has been emitted but the IV of a SENC, and the whole stream is to come (R144). -/
theorem startEncrypt_streamProgress (iv : Block) (ho : s.cmd.operation = some .senc) (hresp : s.resp = [])
    (hiv : IvAdmitted s.cmd iv) : StreamProgress S (startEncrypt iv s) := by
  simp only [StreamProgress, startEncrypt_cmd, ho]
  exact ⟨iv, hiv, by simp [hresp]⟩

theorem startDecrypt_streamProgress (ho : s.cmd.operation = some .sdec) (hresp : s.resp = []) :
    StreamProgress S (startDecrypt (blockOf s.cmd.data) s) := by
  simp [StreamProgress, ho, hresp]

theorem ivsel_keeps_seqInv (hp : s.phase = .ivsel) (hs : SeqInv S s) (h : seqStep S s = .next t) : SeqInv S t := by
  have hs' := hs
  simp only [SeqInv, hp] at hs
  obtain ⟨hc, hk, hst, hresp⟩ := hs
  obtain ⟨op, v, -⟩ := checked_iff.mp hc
  rw [seqStep_ivsel hp] at h
  have ho := v.operation
  cases op with
  | benc => simp [ivselStep, ho] at h
  | bdec => simp [ivselStep, ho] at h
  | senc =>
      cases hi : s.cmd.ivp with
      | true =>
          simp only [ivselStep, ho, hi, if_true, memRead_iv hi (v.iv rfl hi)] at h
          cases h
          exact ⟨hc, hk, hst, startEncrypt_streamProgress _ ho hresp fun _ => rfl, Nat.zero_le _, .inl rfl⟩
      | false =>
          have hadm : ∀ iv, IvAdmitted s.cmd iv := fun iv h1 => by rw [hi] at h1; cases h1
          cases hd : s.draws with
          | nil =>
              simp only [ivselStep, ho, hi, hd] at h
              cases h
              exact hs'
          | cons d ds =>
              simp only [ivselStep, ho, hi, hd] at h
              cases h
              exact ⟨hc, hk, hst, startEncrypt_streamProgress (s := { s with draws := ds }) d ho hresp (hadm d),
                Nat.zero_le _, .inl rfl⟩
  | sdec =>
      have hm : memRead s.cmd .data 0 8 = some (s.cmd.data.take 8) := memRead_data (by have := v.envelope rfl; omega)
      simp only [ivselStep, ho, hm, blockOf_take] at h
      cases h
      exact ⟨hc, hk, hst, startDecrypt_streamProgress ho hresp, Nat.zero_le _, .inl rfl⟩

theorem next_keeps_seqInv (hp : s.phase = .next) (hs : SeqInv S s) (h : seqStep S s = .next t) : SeqInv S t := by
  simp only [SeqInv, hp] at hs
  obtain ⟨hc, hk, hst, hprog, hle, hpos⟩ := hs
  obtain ⟨op, v, -⟩ := checked_iff.mp hc
  have hb := (streaming_iff v.operation).mp hst
  simp only [seqStep_next hp, nextStep, v.operation, hb, ← commandStream_eq v.operation hb] at h
  cases h
  by_cases hend : s.pos = (commandStream s.cmd).length
  · simp only [SeqInv, hend, if_true]
    refine ⟨hc, hk, (answered_stream_iff (op := op) v.operation hb).mpr ?_⟩
    have := (streamProgress_iff v.operation).mp hprog
    simpa [hend] using this
  · simp only [SeqInv, hend, if_false]
    exact ⟨hc, hk, fun hn => absurd hst hn,
      fun _ => ⟨hprog, Nat.lt_of_le_of_ne hle hend, hpos.resolve_right hend⟩⟩

/-- LOAD starts the block transform on its input: no round is done (R124). -/
theorem loadPair_keeps_seqInv (hc : Checked s) (hk : Keyed s) (hin : InBlock S s) :
    SeqInv S (loadPair (currentSource s) s) :=
  ⟨hc, hk, hin, by simp, rfl⟩

theorem load_keeps_seqInv (hp : s.phase = .load) (hs : SeqInv S s) (h : seqStep S s = .next t) : SeqInv S t := by
  simp only [SeqInv, hp] at hs
  obtain ⟨hc, hk, hin⟩ := hs
  obtain ⟨op, v, -⟩ := checked_iff.mp hc
  have hload : seqStep S s = .next (loadPair (currentSource s) s) := by
    cases hb : op.isBlock with
    | true => rw [currentSource_block v.operation hb, load_block hp v.operation hb (by rw [v.block hb])]
    | false => rw [currentSource_stream v.operation hb, load_stream hp v.operation hb]
  rw [hload] at h
  cases h
  exact loadPair_keeps_seqInv hc hk hin

theorem round_keeps_seqInv (hp : s.phase = .round) (hs : SeqInv S s) (h : seqStep S s = .next t) : SeqInv S t := by
  simp only [SeqInv, hp] at hs
  obtain ⟨hc, hk, hin, hlt, hpair⟩ := hs
  simp only [seqStep_round hp, roundStep, hlt, dif_pos] at h
  have hpair' : roundPair S (subkeyAt s.k (idxOf s.dir s.rnd.val)) (s.n1, s.n2)
      = rounds S s.k (idxOf s.dir) (firstHalf (currentSource s), secondHalf (currentSource s)) (s.rnd.val + 1) := by
    rw [hpair, rounds]
  by_cases hlast : s.rnd.val + 1 = 32
  · rw [if_pos hlast] at h
    cases h
    exact ⟨hc, hk, hin, hlast, hpair'⟩
  · rw [if_neg hlast] at h
    cases h
    exact ⟨hc, hk, hin, Nat.lt_of_le_of_ne hlt hlast, hpair'⟩

/-- After 32 rounds the packed halves are the block transform of its input (R126). -/
theorem packHalves_of_pairAfter (hpair : PairAfter S s) (h32 : s.rnd.val = 32) :
    packHalves s.n2 s.n1 = blockCore S s.k (idxOf s.dir) (currentSource s) := by
  rw [PairAfter, h32] at hpair
  simp only [blockCore, Config.nRounds, ← hpair]

theorem pack_keeps_seqInv (hp : s.phase = .pack) (hs : SeqInv S s) (h : seqStep S s = .next t) : SeqInv S t := by
  simp only [SeqInv, hp] at hs
  obtain ⟨hc, hk, hin, h32, hpair⟩ := hs
  obtain ⟨op, v, hd⟩ := checked_iff.mp hc
  have hks := packHalves_of_pairAfter hpair h32
  simp only [seqStep_pack hp, packStep, v.operation, hks] at h
  cases hb : op.isBlock with
  | true =>
      simp only [hb, if_true] at h
      cases h
      have hresp : s.resp = [] := hin.1 (by simp [streaming_iff v.operation, hb])
      refine ⟨hc, hk, (answered_block_iff (op := op) ?_ hb).mpr ?_⟩
      · exact v.operation
      · simp [hresp, hd, currentSource_block v.operation hb]
  | false =>
      simp only [hb] at h
      cases h
      refine ⟨hc, hk, (streaming_iff v.operation).mpr hb, hin, ?_⟩
      simp [hd, currentSource_stream v.operation hb, dirOf_streaming hb, idxOf]

/-- The bytes MIX reads are the next block of the stream (R28, R146). -/
theorem memRead_stream_block {c : Cmd} {pos : Nat} (hlt : pos < (streamOf op c).length) :
    memRead c .data (op.streamBase + pos) (min 8 ((streamOf op c).length - pos))
      = some (((streamOf op c).drop pos).take 8) := by
  rw [streamOf, List.length_drop] at hlt
  rw [memRead_data (by simp only [streamOf, List.length_drop]; omega), Option.some.injEq, streamOf, List.drop_drop,
    List.take_eq_take_iff]
  simp
  omega

/-- Moving on by the length of a block, a short last one included, drops that block. -/
theorem drop_block (bs : Bytes) (pos : Nat) : bs.drop (pos + min 8 (bs.length - pos)) = (bs.drop pos).drop 8 := by
  rw [List.drop_drop]
  by_cases h8 : 8 ≤ bs.length - pos
  · rw [Nat.min_eq_left h8]
  · rw [List.drop_eq_nil_of_le (by omega), List.drop_eq_nil_of_le (by omega)]

/-- Masking one block moves it from the stream to come to the response (R147). -/
theorem StreamProgress.mask_block (ho : s.cmd.operation = some op) (hprog : StreamProgress S s)
    (hlt : s.pos < (commandStream s.cmd).length) :
    let inp := ((commandStream s.cmd).drop s.pos).take 8
    let o := xorBytes inp (blockBytes (blockCore S s.k encIdx s.gamma))
    StreamProgress S { s with resp := s.resp ++ o, gamma := mixed op inp o,
                              pos := s.pos + min 8 ((commandStream s.cmd).length - s.pos), phase := .next } := by
  intro inp o
  have hne : (commandStream s.cmd).drop s.pos ≠ [] := by simp; omega
  rw [streamProgress_iff ho, streamBlocks_of_ne_nil hne, cfbFrom_cons, ← List.append_assoc, ← drop_block] at hprog
  refine (streamProgress_iff (op := op) ?_).mpr ?_
  · exact ho
  · exact hprog

theorem mix_keeps_seqInv (hp : s.phase = .mix) (hs : SeqInv S s) (h : seqStep S s = .next t) : SeqInv S t := by
  simp only [SeqInv, hp] at hs
  obtain ⟨hc, hk, hst, ⟨-, hin⟩, hks⟩ := hs
  obtain ⟨hprog, hlt, hmod⟩ := hin hst
  obtain ⟨op, v, -⟩ := checked_iff.mp hc
  have hb := (streaming_iff v.operation).mp hst
  have hcs := commandStream_eq v.operation hb
  have hread := memRead_stream_block (op := op) (c := s.cmd) (hcs ▸ hlt)
  rw [← hcs] at hread
  simp only [seqStep_mix hp, mixStep, v.operation, hb, ← hcs, hread, hks] at h
  cases h
  refine ⟨hc, hk, hst, hprog.mask_block v.operation hlt, ?_, ?_⟩
  · show s.pos + min 8 ((commandStream s.cmd).length - s.pos) ≤ (commandStream s.cmd).length
    omega
  · show (s.pos + min 8 ((commandStream s.cmd).length - s.pos)) % 8 = 0 ∨
      s.pos + min 8 ((commandStream s.cmd).length - s.pos) = (commandStream s.cmd).length
    omega

theorem doneStep_keeps_seqInv (h : doneStep s = .next t) : SeqInv S t := by
  cases h
  exact seqInv_of_idle rfl

/-- Every step of the sequencer keeps the invariant. -/
theorem seqStep_keeps_seqInv (hs : SeqInv S s) (h : seqStep S s = .next t) : SeqInv S t := by
  cases hp : s.phase with
  | idle => exact acceptStep_keeps_seqInv hp (seqStep_idle hp ▸ h)
  | check => exact checkStep_keeps_seqInv (seqStep_check hp ▸ h)
  | kexp => exact kexp_keeps_seqInv hp hs h
  | ivsel => exact ivsel_keeps_seqInv hp hs h
  | next => exact next_keeps_seqInv hp hs h
  | load => exact load_keeps_seqInv hp hs h
  | round => exact round_keeps_seqInv hp hs h
  | pack => exact pack_keeps_seqInv hp hs h
  | mix => exact mix_keeps_seqInv hp hs h
  | done => exact doneStep_keeps_seqInv (seqStep_done hp ▸ h)

/-! ### Whole commands keep the invariant -/

theorem runToIdle_eq_seqRun (m : Nat) (s : State) : ∃ n, n ≤ m ∧ runToIdle S m s = seqRun S n s := by
  induction m generalizing s with
  | zero => exact ⟨0, Nat.le_refl 0, rfl⟩
  | succ m ih =>
      by_cases hp : s.phase = .idle
      · exact ⟨0, Nat.zero_le _, runToIdle_idle _ hp⟩
      · rw [runToIdle, if_neg hp]
        cases hstep : seqStep S s with
        | next t =>
            obtain ⟨n, hn, hrun⟩ := ih t
            exact ⟨n + 1, Nat.succ_le_succ hn, by simp [seqRun, hstep, hrun]⟩
        | fault f => exact ⟨1, by omega, by simp [seqRun, hstep]⟩
        | refused r => exact ⟨1, by omega, by simp [seqRun, hstep]⟩

theorem seqRun_keeps_seqInv {n : Nat} (hs : SeqInv S s) (h : seqRun S n s = .next t) : SeqInv S t := by
  induction n generalizing s with
  | zero =>
      cases h
      exact hs
  | succ n ih =>
      rw [seqRun] at h
      cases hstep : seqStep S s with
      | next u =>
          rw [hstep] at h
          exact ih (seqStep_keeps_seqInv hs hstep) h
      | fault f => simp [hstep] at h
      | refused r => simp [hstep] at h

end Invariant

section Frame

variable {S : SBox} {s : State} {h : Header} {c : Cmd} {rest : Bytes}

theorem accept_latches (hp : s.phase = .idle) (hs : splitFrame s.rx = some (h, c, rest))
    (ha : answerTooLong c = false) :
    seqStep S s = .next (accept c { s with rx := rest }) := by
  simp [seqStep_idle hp, acceptStep, hs, ha]

theorem accept_refuses (hp : s.phase = .idle) (hs : splitFrame s.rx = some (h, c, rest))
    (ha : answerTooLong c = true) :
    seqStep S s = .refused .responseTooLong := by
  simp [seqStep_idle hp, acceptStep, hs, ha]

/-- An idle engine's step on a whole frame is a run of the sequencer: as many steps as the command takes, at most. -/
theorem step_eq_seqRun (hr : s.resetIn = false) (hp : s.phase = .idle) (hs : splitFrame s.rx = some (h, c, rest)) :
    ∃ n, 0 < n ∧ n ≤ stepCount c ∧ seqRun Config.sbox n s = step s := by
  have hcount := stepCount_pos c
  cases ha : answerTooLong c with
  | true =>
      refine ⟨1, Nat.one_pos, by omega, ?_⟩
      simp [step_of_frame hr hp hs, seqRun, accept_refuses hp hs ha, ha]
  | false =>
      obtain ⟨n, hn, hrun⟩ :=
        runToIdle_eq_seqRun (S := Config.sbox) (stepCount c - 1) (accept c { s with rx := rest })
      refine ⟨n + 1, n.succ_pos, by omega, ?_⟩
      rw [step_of_frame hr hp hs, ha, if_neg Bool.false_ne_true, present, if_pos hp, hrun, seqRun,
        accept_latches hp hs ha]

theorem stepCount_le (c : Cmd) : stepCount c ≤ 38 + 36 * ((c.data.length + 7) / 8) := by
  unfold stepCount
  split
  case h_1 | h_2 =>
    simp only [streamOf, Op.streamBase, blockCount, List.length_drop]
    omega
  all_goals omega

end Frame

/-- Settles O39: a reset leaves the engine idle, and every other step is a run of the sequencer, whose steps keep the
invariant. -/
theorem stepKeepsTheInvariant : Obligations.StepKeepsTheInvariant := by
  intro s t hs h
  cases hr : s.resetIn with
  | true =>
      simp only [step, hr, if_true] at h
      cases h
      exact seqInv_of_idle rfl
  | false =>
      by_cases hp : s.phase = .idle
      · cases hf : splitFrame s.rx with
        | none =>
            rw [step_incomplete hr hp hf] at h
            cases h
            exact hs
        | some f =>
            obtain ⟨hd, c, rest⟩ := f
            obtain ⟨n, -, -, hrun⟩ := step_eq_seqRun hr hp hf
            exact seqRun_keeps_seqInv hs (hrun.trans h)
      · rw [step_busy hr hp] at h
        exact seqStep_keeps_seqInv hs h

/-- Settles O57: a step on a whole frame takes no more sequencer steps than its command does. -/
theorem stepAgreesWithTheSequencer : Obligations.StepAgreesWithTheSequencer := by
  intro s h c rest hr hp hs
  obtain ⟨n, hpos, hle, hrun⟩ := step_eq_seqRun hr hp hs
  exact ⟨n, hpos, hle.trans (stepCount_le c), hrun⟩

/-- Settles O52: CHECK finds `BadFrame` in every command whose frame is in no row. -/
theorem stepAnswersIllegalFramesBadFrame : Obligations.StepAnswersIllegalFramesBadFrame := by
  intro s h c rest hr hp hs hrow
  obtain ⟨rfl, hfits, -⟩ := splitFrame_some hs
  have hbad : checkCmd c = some .badFrame := checkCmd_badFrame.mpr (breaksFrame_of_no_row hfits hrow)
  have hshort : answerTooLong c = false := by simp [answerTooLong, hbad]
  rw [step_of_frame hr hp hs, hshort, if_neg Bool.false_ne_true, present_refused (s := { s with rx := rest }) hp hbad]
  simp [raiseFault, deliver, accept, hp]

/-- Settles O51: the frame the decoder reads is the one the engine accepts, and `exec` presents its command. -/
theorem stepRunsTheDecodedInstruction : Obligations.StepRunsTheDecodedInstruction := by
  intro s i rest hr hp hdec hshort
  obtain ⟨-, hs⟩ := decode_ok hdec
  rw [step_of_frame hr hp hs, hshort, if_neg Bool.false_ne_true, exec_eq_present]

section Isolation

variable {S : SBox} {P Q : Platform} {j k : Nat} {x : Event}

theorem platformEvent_length (h : platformEvent S k x P = .next Q) : Q.engines.length = P.engines.length := by
  obtain ⟨-, rfl⟩ | ⟨e, e', -, -, rfl⟩ := platformEvent_next h
  · rfl
  · simp

/-- An event of a platform takes an engine one of its own events further, or none if the event is another's. -/
theorem platformEvent_engine (xs : List (Nat × Event)) {e : State} (h : platformEvent S k x P = .next Q)
    (hj : P.engines[j]? = some e) :
    ∃ e', Q.engines[j]? = some e' ∧
      engineRun S (ownEvents j ((k, x) :: xs)) e = engineRun S (ownEvents j xs) e' := by
  obtain ⟨hnone, rfl⟩ | ⟨e₀, e', he₀, hev, rfl⟩ := platformEvent_next h
  · have hne : k ≠ j := fun hkj => by simp [← hkj, hnone] at hj
    exact ⟨e, hj, by rw [ownEvents_other hne]⟩
  · by_cases hkj : k = j
    · subst hkj
      obtain rfl : e₀ = e := by simpa [he₀] using hj
      exact ⟨e', engines_set_self he₀, by simp [engineRun, hev]⟩
    · exact ⟨e, by rw [engines_set_other hkj, hj], by rw [ownEvents_other hkj]⟩

/-- An event whose engine alone gets through it gives a next platform. -/
theorem platformEvent_completes (h : ∀ e, P.engines[k]? = some e → ∃ e', engineEvent S x e = .next e') :
    ∃ Q, platformEvent S k x P = .next Q := by
  cases hk : P.engines[k]? with
  | none => exact ⟨P, platformEvent_none hk⟩
  | some e =>
      obtain ⟨e', he'⟩ := h e hk
      exact ⟨⟨P.engines.set k e'⟩, by rw [platformEvent_some hk, he', platformOutcome]⟩

theorem engineRun_cons_next {xs : List Event} {e e' : State} (h : engineRun S (x :: xs) e = .next e') :
    ∃ e₁, engineEvent S x e = .next e₁ := by
  rw [engineRun] at h
  cases hev : engineEvent S x e with
  | next e₁ => exact ⟨e₁, rfl⟩
  | fault f => simp [hev] at h
  | refused r => simp [hev] at h

/-- In a run that ends in a platform, each engine does what its own events alone make of it. -/
theorem platformRun_projects {sched : List (Nat × Event)} (h : platformRun S sched P = .next Q) :
    Q.engines.length = P.engines.length ∧
      ∀ (j : Nat) (e : State), P.engines[j]? = some e →
        ∃ e', engineRun S (ownEvents j sched) e = .next e' ∧ Q.engines[j]? = some e' := by
  induction sched generalizing P with
  | nil =>
      cases h
      exact ⟨rfl, fun j e hj => ⟨e, rfl, hj⟩⟩
  | cons kx xs ih =>
      obtain ⟨k, x⟩ := kx
      rw [platformRun] at h
      cases hev : platformEvent S k x P with
      | next R =>
          rw [hev] at h
          obtain ⟨hlen, hown⟩ := ih h
          refine ⟨hlen.trans (platformEvent_length hev), fun j e hj => ?_⟩
          obtain ⟨e₁, hj₁, hrun⟩ := platformEvent_engine xs hev hj
          rw [hrun]
          exact hown j e₁ hj₁
      | fault f => simp [hev] at h
      | refused r => simp [hev] at h

/-- A platform gets through a schedule that each of its engines alone gets through. -/
theorem platformRun_completes {sched : List (Nat × Event)}
    (h : ∀ (j : Nat) (e : State), P.engines[j]? = some e → ∃ e', engineRun S (ownEvents j sched) e = .next e') :
    ∃ Q, platformRun S sched P = .next Q := by
  induction sched generalizing P with
  | nil => exact ⟨P, rfl⟩
  | cons kx xs ih =>
      obtain ⟨k, x⟩ := kx
      obtain ⟨R, hev⟩ : ∃ R, platformEvent S k x P = .next R := by
        refine platformEvent_completes fun e hk => ?_
        obtain ⟨e', he'⟩ := h k e hk
        exact engineRun_cons_next (ownEvents_self k x xs ▸ he')
      have hrest : ∀ j e₁, R.engines[j]? = some e₁ → ∃ e', engineRun S (ownEvents j xs) e₁ = .next e' := by
        intro j e₁ hj₁
        have hlt : j < P.engines.length := by
          obtain ⟨hlt, -⟩ := List.getElem?_eq_some_iff.mp hj₁
          rwa [platformEvent_length hev] at hlt
        have hj : P.engines[j]? = some P.engines[j] := List.getElem?_eq_getElem hlt
        obtain ⟨e₂, hj₂, hrun⟩ := platformEvent_engine xs hev hj
        obtain rfl : e₂ = e₁ := by simpa [hj₁] using hj₂.symm
        rw [← hrun]
        exact h j _ hj
      obtain ⟨Q, hQ⟩ := ih hrest
      exact ⟨Q, by simp [platformRun, hev, hQ]⟩

end Isolation

/-- Settles O58: by induction on the schedule, one event at a time, for both directions. -/
theorem enginesAreIsolated : Obligations.EnginesAreIsolated :=
  fun _ _ _ => ⟨fun _ h => platformRun_projects h, platformRun_completes⟩

end Sys2Proof.Machine

/-! ## What one step of the sequencer can do

`SeqMove` has one constructor for each way a step of R33's table can go, with its premises and what it writes. What a step
keeps, which phase it leads to and what it delivers is then read off the moves. -/

namespace Sys2Proof.Machine

section Moves

variable {S : SBox} {s t : State}

/-- The steps of the sequencer that give a next state, each with its premises and its effect (R33). -/
inductive SeqMove (S : SBox) (s : State) : State → Prop
  /-- No whole frame is presented (R75, log entry 10). -/
  | waitFrame (hp : s.phase = .idle) (hf : splitFrame s.rx = none) : SeqMove S s s
  | accept {h : Header} {c : Cmd} {rest : Bytes} (hp : s.phase = .idle) (hf : splitFrame s.rx = some (h, c, rest))
      (ha : answerTooLong c = false) : SeqMove S s (accept c { s with rx := rest })
  | refuse {f : CmdFault} (hp : s.phase = .check) (hc : checkCmd s.cmd = some f) : SeqMove S s (raiseFault f s)
  | pass (hp : s.phase = .check) (hc : checkCmd s.cmd = none) :
      SeqMove S s { s with dir := dirOf s.cmd.operation, resp := [], phase := .kexp }
  | expandKey {op : Op} {key : Bytes} (hp : s.phase = .kexp) (ho : s.cmd.operation = some op)
      (hm : memRead s.cmd .key 0 32 = some key) :
      SeqMove S s { s with k := subkeysOf key, phase := if op.isBlock then .load else .ivsel }
  /-- The draw of a SENC without IV is not answered (R177, log entry 10). -/
  | waitDraw (hw : AwaitsDraw s) : SeqMove S s s
  | explicitIv {iv : Bytes} (hp : s.phase = .ivsel) (ho : s.cmd.operation = some .senc) (hi : s.cmd.ivp = true)
      (hm : memRead s.cmd .iv 0 8 = some iv) : SeqMove S s (startEncrypt (blockOf iv) s)
  | drawnIv {d : Block} {ds : List Block} (hp : s.phase = .ivsel) (ho : s.cmd.operation = some .senc)
      (hi : s.cmd.ivp = false) (hd : s.draws = d :: ds) : SeqMove S s (startEncrypt d { s with draws := ds })
  | envelopeIv {iv : Bytes} (hp : s.phase = .ivsel) (ho : s.cmd.operation = some .sdec)
      (hm : memRead s.cmd .data 0 8 = some iv) : SeqMove S s (startDecrypt (blockOf iv) s)
  | next {op : Op} (hp : s.phase = .next) (ho : s.cmd.operation = some op) (hb : op.isBlock = false) :
      SeqMove S s { s with phase := if s.pos = (streamOf op s.cmd).length then .done else .load }
  | loadBlock {op : Op} {b : Bytes} (hp : s.phase = .load) (ho : s.cmd.operation = some op) (hb : op.isBlock = true)
      (hm : memRead s.cmd .data 0 8 = some b) : SeqMove S s (loadPair (blockOf b) s)
  | loadGamma {op : Op} (hp : s.phase = .load) (ho : s.cmd.operation = some op) (hb : op.isBlock = false) :
      SeqMove S s (loadPair s.gamma s)
  | round {p : Word × Word} (hp : s.phase = .round) (hr : s.rnd.val < 32)
      (he : p = roundPair S (subkeyAt s.k (idxOf s.dir s.rnd.val)) (s.n1, s.n2)) :
      SeqMove S s { s with n1 := p.1, n2 := p.2, rnd := ⟨s.rnd.val + 1, by omega⟩,
                           phase := if s.rnd.val + 1 = 32 then .pack else .round }
  | packBlock {op : Op} (hp : s.phase = .pack) (ho : s.cmd.operation = some op) (hb : op.isBlock = true) :
      SeqMove S s { appendResp (blockBytes (packHalves s.n2 s.n1)) s with ks := packHalves s.n2 s.n1, phase := .done }
  | packStream {op : Op} (hp : s.phase = .pack) (ho : s.cmd.operation = some op) (hb : op.isBlock = false) :
      SeqMove S s { s with ks := packHalves s.n2 s.n1, phase := .mix }
  | mix {op : Op} {len : Nat} {inp : Bytes} (hp : s.phase = .mix) (ho : s.cmd.operation = some op)
      (hb : op.isBlock = false) (hl : len = min 8 ((streamOf op s.cmd).length - s.pos))
      (hm : memRead s.cmd .data (op.streamBase + s.pos) len = some inp) :
      SeqMove S s { appendResp (xorBytes inp (blockBytes s.ks)) s with
                      gamma := mixed op inp (xorBytes inp (blockBytes s.ks)), pos := s.pos + len, phase := .next }
  | done (hp : s.phase = .done) : SeqMove S s (finish s)

theorem seqMove_of_acceptStep (hp : s.phase = .idle) (h : acceptStep s = .next t) : SeqMove S s t := by
  unfold acceptStep at h
  split at h
  · next hf =>
      cases h
      exact .waitFrame hp hf
  · next hf =>
      split at h
      · cases h
      · next ha =>
          cases h
          exact .accept hp hf (by simpa using ha)

theorem seqMove_of_checkStep (hp : s.phase = .check) (h : checkStep s = .next t) : SeqMove S s t := by
  unfold checkStep at h
  split at h
  · next hc =>
      cases h
      exact .refuse hp hc
  · next hc =>
      cases h
      exact .pass hp hc

theorem seqMove_of_kexpStep (hp : s.phase = .kexp) (h : kexpStep s = .next t) : SeqMove S s t := by
  unfold kexpStep at h
  split at h
  · cases h
  · next ho =>
      split at h
      · cases h
      · next hm =>
          cases h
          exact .expandKey hp ho hm

theorem seqMove_of_ivselStep (hp : s.phase = .ivsel) (h : ivselStep s = .next t) : SeqMove S s t := by
  unfold ivselStep at h
  split at h
  · next ho =>
      split at h
      · next hi =>
          split at h
          · cases h
          · next hm =>
              cases h
              exact .explicitIv hp ho hi hm
      · next hi =>
          rw [Bool.not_eq_true] at hi
          split at h
          · next hd =>
              cases h
              exact .waitDraw ⟨hp, ho, hi, hd⟩
          · next hd =>
              cases h
              exact .drawnIv hp ho hi hd
  · next ho =>
      split at h
      · cases h
      · next hm =>
          cases h
          exact .envelopeIv hp ho hm
  all_goals cases h

theorem seqMove_of_nextStep (hp : s.phase = .next) (h : nextStep s = .next t) : SeqMove S s t := by
  unfold nextStep at h
  split at h
  · cases h
  · next ho =>
      split at h
      · cases h
      · next hb =>
          cases h
          exact .next hp ho (by simpa using hb)

theorem seqMove_of_loadStep (hp : s.phase = .load) (h : loadStep s = .next t) : SeqMove S s t := by
  unfold loadStep at h
  split at h
  · cases h
  · next ho =>
      split at h
      · next hb =>
          split at h
          · cases h
          · next hm =>
              cases h
              exact .loadBlock hp ho hb hm
      · next hb =>
          cases h
          exact .loadGamma hp ho (by simpa using hb)

theorem seqMove_of_roundStep (hp : s.phase = .round) (h : roundStep S s = .next t) : SeqMove S s t := by
  unfold roundStep at h
  split at h
  · next hr =>
      cases h
      exact .round hp hr rfl
  · cases h

theorem seqMove_of_packStep (hp : s.phase = .pack) (h : packStep s = .next t) : SeqMove S s t := by
  unfold packStep at h
  split at h
  · cases h
  · next ho =>
      dsimp only at h
      split at h
      · next hb =>
          cases h
          exact .packBlock hp ho hb
      · next hb =>
          cases h
          exact .packStream hp ho (by simpa using hb)

theorem seqMove_of_mixStep (hp : s.phase = .mix) (h : mixStep s = .next t) : SeqMove S s t := by
  unfold mixStep at h
  split at h
  · cases h
  · next ho =>
      split at h
      · cases h
      · next hb =>
          dsimp only at h
          split at h
          · cases h
          · next hm =>
              cases h
              exact .mix hp ho (by simpa using hb) rfl hm

/-- A step that gives a next state is one of the moves. -/
theorem seqMove_of_seqStep (h : seqStep S s = .next t) : SeqMove S s t := by
  cases hp : s.phase with
  | idle => exact seqMove_of_acceptStep hp (seqStep_idle hp ▸ h)
  | check => exact seqMove_of_checkStep hp (seqStep_check hp ▸ h)
  | kexp => exact seqMove_of_kexpStep hp (seqStep_kexp hp ▸ h)
  | ivsel => exact seqMove_of_ivselStep hp (seqStep_ivsel hp ▸ h)
  | next => exact seqMove_of_nextStep hp (seqStep_next hp ▸ h)
  | load => exact seqMove_of_loadStep hp (seqStep_load hp ▸ h)
  | round => exact seqMove_of_roundStep hp (seqStep_round hp ▸ h)
  | pack => exact seqMove_of_packStep hp (seqStep_pack hp ▸ h)
  | mix => exact seqMove_of_mixStep hp (seqStep_mix hp ▸ h)
  | done =>
      rw [seqStep_done hp] at h
      cases h
      exact .done hp

end Moves

/-! ### What the moves say of phases, responses and latches -/

section Reads

variable {S : SBox} {s t : State}

/-- A step delivers nothing, or one response as it returns the engine to IDLE, from CHECK or from DONE (R30, R62, R79). -/
theorem seqStep_delivers (h : seqStep S s = .next t) :
    (t.tx = s.tx ∧ (s.phase ≠ .idle → t.phase ≠ .idle)) ∨
      (t.phase = .idle ∧
        (s.phase = .check ∧ (∃ f, t.tx = s.tx ++ [⟨.fault f, []⟩]) ∨
          s.phase = .done ∧ t.tx = s.tx ++ [⟨.ok, s.resp⟩])) := by
  cases seqMove_of_seqStep h with
  | waitFrame | waitDraw => exact .inl ⟨rfl, id⟩
  | refuse hp => exact .inr ⟨rfl, .inl ⟨hp, _, rfl⟩⟩
  | done hp => exact .inr ⟨rfl, .inr ⟨hp, rfl⟩⟩
  | accept | pass | explicitIv | drawnIv | envelopeIv | loadBlock | loadGamma | packBlock | packStream | mix =>
      exact .inl ⟨rfl, fun _ => by simp⟩
  | expandKey | next | round =>
      refine .inl ⟨rfl, fun _ => ?_⟩
      dsimp only
      split <;> simp

/-- Steps that leave the engine busy deliver nothing. -/
theorem seqStep_busy_tx (h : seqStep S s = .next t) (hp : t.phase ≠ .idle) : t.tx = s.tx := by
  obtain ⟨htx, -⟩ | ⟨hidle, -⟩ := seqStep_delivers h
  · exact htx
  · exact absurd hidle hp

/-- A busy engine accepts no bytes (R34). -/
theorem seqStep_busy_rx (hp : s.phase ≠ .idle) (h : seqStep S s = .next t) : t.rx = s.rx := by
  cases seqMove_of_seqStep h with
  | accept hi => exact absurd hi hp
  | _ => rfl

end Reads

/-- Settles O30: each move joins two phases of R33's table, or is one of the two that wait. -/
theorem phasesFollowTheTable : Obligations.PhasesFollowTheTable := by
  intro S s t h
  cases seqMove_of_seqStep h with
  | waitFrame hp hf => exact .inr ⟨rfl, .inl ⟨hp, hf⟩⟩
  | waitDraw hw => exact .inr ⟨rfl, .inr hw⟩
  | accept hp | refuse hp | pass hp | explicitIv hp | drawnIv hp | envelopeIv hp | loadBlock hp | loadGamma hp
  | packBlock hp | packStream hp | mix hp | done hp => exact .inl (by simp [hp])
  | expandKey hp | next hp | round hp =>
      left
      dsimp only
      split <;> simp [hp]

/-- Settles O31, move by move. -/
theorem oneResponseEndsACommand : Obligations.OneResponseEndsACommand :=
  fun _ _ _ h => seqStep_delivers h

/-- Settles O32: only ACCEPT writes `CMD`, only CHECK writes `DIR` and empties `RESP`, and what else writes `RESP`
appends to it. -/
theorem latchesKeepTheCommandInProgress : Obligations.LatchesKeepTheCommandInProgress := by
  intro S s t hbusy h
  cases seqMove_of_seqStep h with
  | accept hp => exact absurd hp hbusy
  | pass hp => exact ⟨rfl, .inl ⟨rfl, hp⟩, .inr hp⟩
  | explicitIv | drawnIv | packBlock | mix => exact ⟨rfl, .inr ⟨_, rfl⟩, .inl rfl⟩
  | _ => exact ⟨rfl, .inr ⟨[], (List.append_nil _).symm⟩, .inl rfl⟩

/-- Settles O33: the moves that write `GAMMA` or `POS` are those of a streaming command. -/
theorem blockCommandsLeaveTheChainAlone : Obligations.BlockCommandsLeaveTheChainAlone := by
  intro S s t hop h
  have hblock : ∀ op, s.cmd.operation = some op → op.isBlock ≠ false := by
    rintro op ho
    obtain hop | hop := hop <;> cases ho.symm.trans hop <;> decide
  cases seqMove_of_seqStep h with
  | explicitIv _ ho | drawnIv _ ho | envelopeIv _ ho => exact absurd rfl (hblock _ ho)
  | mix _ ho hb => exact absurd hb (hblock _ ho)
  | _ => exact ⟨rfl, rfl⟩

/-- Settles O19: ACCEPT alone consumes bytes presented. -/
theorem acceptLatchesAWholeCommand : Obligations.AcceptLatchesAWholeCommand := by
  refine ⟨fun S s h c rest hp hf ha => accept_latches hp hf ha, fun S s hp hf => ?_, fun S s t => seqStep_busy_rx⟩
  simp [seqStep_idle hp, acceptStep, hf]

/-- Settles O29: DONE's one effect is `finish`. -/
theorem doneDeliversTheResponse : Obligations.DoneDeliversTheResponse :=
  fun _ _ hp => seqStep_done hp

/-- Settles O38, from the step of each phase. -/
theorem sequencerKeepsTheInvariant : Obligations.SequencerKeepsTheInvariant :=
  fun _ _ _ hs h => seqStep_keeps_seqInv hs h

/-- Settles O50: `exec` presents the command, and a busy engine takes its own step. -/
theorem busyEngineMakesACommandWait : Obligations.BusyEngineMakesACommandWait := by
  intro i s hp
  rw [exec_eq_present, present, if_neg hp]

/-- Settles O55: `step` leaves a busy engine to its sequencer. -/
theorem stepContinuesTheCommandInProgress : Obligations.StepContinuesTheCommandInProgress :=
  fun _ hr hp => step_busy hr hp

/-! ### Whole commands: what they deliver, and after how many steps -/

section Commands

variable {S : SBox} {s t : State} {c : Cmd}

/-- What the host sees of a command handed to an idle engine is told by the command and the draws alone: its responses,
its last phase and the draws it leaves are named before the engine is (R36, R38). -/
theorem present_observable (S : SBox) (c : Cmd) (draws : List Block) :
    ∃ new phase left, ∀ s : State, s.phase = .idle → s.draws = draws →
      ∃ t, present S c s = .next t ∧ t.tx = s.tx ++ new ∧ t.phase = phase ∧ t.draws = left := by
  cases hc : checkCmd c with
  | some f => exact ⟨_, _, _, fun s hp hd => ⟨_, present_refused hp hc, rfl, rfl, hd⟩⟩
  | none =>
      obtain ⟨op, v⟩ := checkCmd_none.mp hc
      cases op with
      | benc | bdec =>
          exact ⟨_, _, _, fun s hp hd =>
            let ⟨t, ht, et⟩ := present_block hp v rfl
            ⟨t, ht, by rw [et]; exact ⟨rfl, hp, hd⟩⟩⟩
      | sdec =>
          exact ⟨_, _, _, fun s hp hd =>
            let ⟨t, ht, et⟩ := present_sdec hp v
            ⟨t, ht, by rw [et]; exact ⟨rfl, hp, hd⟩⟩⟩
      | senc =>
          cases hi : c.ivp with
          | true =>
              exact ⟨_, _, _, fun s hp hd =>
                let ⟨t, ht, et⟩ := present_senc_explicit hp v hi
                ⟨t, ht, by rw [et]; exact ⟨rfl, hp, hd⟩⟩⟩
          | false =>
              cases draws with
              | nil =>
                  exact ⟨[], _, _, fun s hp hd =>
                    ⟨_, present_senc_silent hp v hi hd, (List.append_nil _).symm, rfl, hd⟩⟩
              | cons d ds =>
                  exact ⟨_, _, _, fun s hp hd =>
                    let ⟨t, ht, et⟩ := present_senc_drawn hp v hi hd
                    ⟨t, ht, by rw [et]; exact ⟨rfl, hp, rfl⟩⟩⟩

/-- A valid command whose draw is answered, if it needs one, runs from CHECK to its `OK` response in the steps that are
left to it (R33). -/
theorem valid_command_reached (h : s.phase = .check) (hc : checkCmd s.cmd = none)
    (hd : NeedsDraw s.cmd → s.draws ≠ []) :
    ∃ t out, Reaches S (stepCount s.cmd - 1) s t ∧ t.phase = .idle ∧ t.tx = s.tx ++ [⟨.ok, out⟩] ∧ t.rx = s.rx := by
  obtain ⟨op, v⟩ := checkCmd_none.mp hc
  cases op with
  | benc | bdec =>
      rw [stepCount_block v rfl]
      obtain ⟨t, ht, et⟩ := block_command_reached (S := S) h v rfl
      exact ⟨t, _, ht, congrArg State.phase et, congrArg State.tx et, (congrArg State.rx et :)⟩
  | sdec =>
      rw [stepCount_sdec v]
      obtain ⟨t, ht, et⟩ := sdec_reached (S := S) h v
      exact ⟨t, _, ht, congrArg State.phase et, congrArg State.tx et, (congrArg State.rx et :)⟩
  | senc =>
      rw [stepCount_senc v]
      cases hi : s.cmd.ivp with
      | true =>
          obtain ⟨t, ht, et⟩ := senc_explicit_reached (S := S) h v hi
          exact ⟨t, _, ht, congrArg State.phase et, congrArg State.tx et, (congrArg State.rx et :)⟩
      | false =>
          obtain ⟨d, ds, hds⟩ := List.exists_cons_of_ne_nil (hd ⟨v.operation, hi⟩)
          obtain ⟨t, ht, et⟩ := senc_drawn_reached (S := S) d ds h v hi hds
          exact ⟨t, _, ht, congrArg State.phase et, congrArg State.tx et, (congrArg State.rx et :)⟩

/-- A run is a run of its first steps and then of the others. -/
theorem Reaches.split {m n : Nat} (h : Reaches S (m + n) s t) : ∃ u, Reaches S m s u ∧ Reaches S n u t := by
  obtain ⟨hrun, hbusy⟩ := h
  rw [seqRun_add] at hrun
  cases hm : seqRun S m s with
  | next u =>
      rw [hm] at hrun
      refine ⟨u, ⟨hm, fun k hk => hbusy k (by omega)⟩, hrun, fun k hk w hw => hbusy (m + k) (by omega) w ?_⟩
      rw [seqRun_add, hm]
      exact hw
  | fault f => simp [hm] at hrun
  | refused r => simp [hm] at hrun

theorem Reaches.busy {n : Nat} (h : Reaches S (n + 1) s t) : s.phase ≠ .idle := h.2 0 n.succ_pos s rfl

theorem Reaches.step_eq (h : Reaches S 1 s t) : seqStep S s = .next t := by
  have hrun := h.1
  rw [seqRun] at hrun
  cases hs : seqStep S s with
  | next u => simpa [hs, seqRun] using hrun
  | fault f => simp [hs] at hrun
  | refused r => simp [hs] at hrun

/-- While a run leaves the engine busy it delivers nothing. -/
theorem Reaches.busy_tx {n : Nat} (h : Reaches S n s t) (hp : t.phase ≠ .idle) : t.tx = s.tx := by
  induction n generalizing t with
  | zero =>
      cases h.1
      rfl
  | succ n ih =>
      obtain ⟨u, hu, hlast⟩ := h.split
      exact (seqStep_busy_tx hlast.step_eq hp).trans (ih hu hlast.busy)

/-- The step count of R33, by the length of the data. -/
theorem stepCount_valid (hc : checkCmd c = none) :
    stepCount c =
      if c.operation = some .senc then 6 + 36 * ((c.data.length + 7) / 8)
      else if c.operation = some .sdec then 6 + 36 * ((c.data.length - 8 + 7) / 8)
      else 38 := by
  obtain ⟨op, v⟩ := checkCmd_none.mp hc
  cases op <;> simp [stepCount, v.operation, streamOf, Op.streamBase, blockCount]

theorem seqRun_succ_of_step {n : Nat} (h : seqStep S s = .next t) : seqRun S (n + 1) s = seqRun S n t := by
  rw [seqRun, h]

end Commands

/-- Settles O34: ACCEPT is the first step, and the run from CHECK delivers nothing until its last. -/
theorem commandsTakeTheirStepCounts : Obligations.CommandsTakeTheirStepCounts := by
  intro S s h c rest hp hf ha hc hd n
  obtain ⟨t, out, hrun, hidle, htx, hrx⟩ :=
    valid_command_reached (S := S) (s := accept c { s with rx := rest }) rfl hc hd
  have hn : n = (stepCount c - 1) + 1 := by
    have := stepCount_pos c
    have : stepCount c = n := stepCount_valid hc
    omega
  have hfirst := accept_latches (S := S) hp hf ha
  constructor
  · exact ⟨t, out, by rw [hn, seqRun_succ_of_step hfirst]; exact hrun.1, hidle, htx, hrx⟩
  · intro k hk hkn
    obtain ⟨k, rfl⟩ := Nat.exists_eq_succ_of_ne_zero hk.ne'
    obtain ⟨m, hm⟩ : ∃ m, stepCount c - 1 = k + (m + 1) := ⟨stepCount c - 2 - k, by omega⟩
    obtain ⟨u, hu, hrest⟩ := (hm ▸ hrun : Reaches S (k + (m + 1)) _ t).split
    exact ⟨u, by rw [seqRun_succ_of_step hfirst]; exact hu.1, hrest.busy, hu.busy_tx hrest.busy⟩

/-- Settles O35: ACCEPT, then CHECK raises the fault. -/
theorem faultingCommandsTakeTwoSteps : Obligations.FaultingCommandsTakeTwoSteps := by
  intro S s h c rest f hp hf hc
  have ha : answerTooLong c = false := by simp [answerTooLong, hc]
  rw [seqRun_succ_of_step (accept_latches hp hf ha), seqRun_succ_of_step (check_refuses rfl hc)]
  simp [seqRun, raiseFault, deliver, accept, hp]

/-- Settles O48: both engines hold the same draws and responses, so the command is answered alike. -/
theorem responsesDoNotDependOnRegisters : Obligations.ResponsesDoNotDependOnRegisters := by
  intro i s s' hp hp' htx hd
  obtain ⟨new, phase, left, hobs⟩ := present_observable Config.sbox i.toCmd s.draws
  obtain ⟨t, ht, htx₁, hphase, hleft⟩ := hobs s hp rfl
  obtain ⟨t', ht', htx₂, hphase', hleft'⟩ := hobs s' hp' hd
  exact ⟨t, t', by rw [exec_eq_present, ht], by rw [exec_eq_present, ht'], by rw [htx₂, htx, htx₁],
    hphase'.trans hphase.symm, hleft'.trans hleft.symm⟩

/-! ### The invariant rules out faults -/

section Progress

variable {S : SBox} {s : State} {op : Op}

theorem ivsel_progress (hp : s.phase = .ivsel) (v : Valid s.cmd op) (hb : op.isBlock = false) :
    ∃ t, seqStep S s = .next t := by
  rw [seqStep_ivsel hp]
  cases op with
  | benc | bdec => cases hb
  | senc =>
      cases hi : s.cmd.ivp with
      | true => exact ⟨_, by simp only [ivselStep, v.operation, hi, if_true, memRead_iv hi (v.iv rfl hi)]; rfl⟩
      | false =>
          cases hd : s.draws with
          | nil => exact ⟨s, by simp [ivselStep, v.operation, hi, hd]⟩
          | cons d ds => exact ⟨startEncrypt d { s with draws := ds }, by simp [ivselStep, v.operation, hi, hd]⟩
  | sdec =>
      have hm := memRead_data (c := s.cmd) (off := 0) (n := 8) (by have := v.envelope rfl; omega)
      exact ⟨_, by simp only [ivselStep, v.operation, hm]; rfl⟩

theorem load_progress (hp : s.phase = .load) (v : Valid s.cmd op) : ∃ t, seqStep S s = .next t := by
  cases hb : op.isBlock with
  | true => exact ⟨_, load_block hp v.operation hb (by rw [v.block hb])⟩
  | false => exact ⟨_, load_stream hp v.operation hb⟩

theorem mix_progress (hp : s.phase = .mix) (v : Valid s.cmd op) (hb : op.isBlock = false)
    (hlt : s.pos < (streamOf op s.cmd).length) : ∃ t, seqStep S s = .next t := by
  exact ⟨_, by simp only [seqStep_mix hp, mixStep, v.operation, hb, memRead_stream_block hlt]; rfl⟩

/-- A busy engine that meets the invariant takes its next step. -/
theorem seqInv_progress (hs : SeqInv S s) (hbusy : s.phase ≠ .idle) : ∃ t, seqStep S s = .next t := by
  cases hp : s.phase with
  | idle => exact absurd hp hbusy
  | check =>
      cases hc : checkCmd s.cmd with
      | some f => exact ⟨_, check_refuses hp hc⟩
      | none =>
          obtain ⟨op, v⟩ := checkCmd_none.mp hc
          exact ⟨_, check_passes hp v⟩
  | kexp =>
      simp only [SeqInv, hp] at hs
      obtain ⟨hc, -⟩ := hs
      obtain ⟨op, v, -⟩ := checked_iff.mp hc
      exact ⟨_, kexp_step hp v⟩
  | ivsel =>
      simp only [SeqInv, hp] at hs
      obtain ⟨hc, -, hst, -⟩ := hs
      obtain ⟨op, v, -⟩ := checked_iff.mp hc
      exact ivsel_progress hp v ((streaming_iff v.operation).mp hst)
  | next =>
      simp only [SeqInv, hp] at hs
      obtain ⟨hc, -, hst, -⟩ := hs
      obtain ⟨op, v, -⟩ := checked_iff.mp hc
      have hb := (streaming_iff v.operation).mp hst
      exact ⟨_, by simp only [seqStep_next hp, nextStep, v.operation, hb]; rfl⟩
  | load =>
      simp only [SeqInv, hp] at hs
      obtain ⟨hc, -⟩ := hs
      obtain ⟨op, v, -⟩ := checked_iff.mp hc
      exact load_progress hp v
  | round =>
      simp only [SeqInv, hp] at hs
      obtain ⟨-, -, -, hlt, -⟩ := hs
      exact ⟨_, by rw [seqStep_round hp, roundStep, dif_pos hlt]⟩
  | pack =>
      simp only [SeqInv, hp] at hs
      obtain ⟨hc, -⟩ := hs
      obtain ⟨op, v, -⟩ := checked_iff.mp hc
      cases hb : op.isBlock <;> exact ⟨_, by simp only [seqStep_pack hp, packStep, v.operation, hb]; rfl⟩
  | mix =>
      simp only [SeqInv, hp] at hs
      obtain ⟨hc, -, hst, ⟨-, hin⟩, -⟩ := hs
      obtain ⟨-, hlt, -⟩ := hin hst
      obtain ⟨op, v, -⟩ := checked_iff.mp hc
      have hb := (streaming_iff v.operation).mp hst
      exact mix_progress hp v hb (commandStream_eq v.operation hb ▸ hlt)
  | done => exact ⟨_, seqStep_done hp⟩

/-- Where the invariant holds a step gives a next state, but on a frame that `RLEN` cannot answer (U6). -/
theorem step_completes_or_refuses (hs : SeqInv Config.sbox s) :
    (∃ t, step s = .next t) ∨
      (step s = .refused .responseTooLong ∧ s.phase = .idle ∧
        ∃ h c rest, splitFrame s.rx = some (h, c, rest) ∧ answerTooLong c = true) := by
  cases hr : s.resetIn with
  | true => exact .inl ⟨applyReset s, by simp [step, hr]⟩
  | false =>
      by_cases hp : s.phase = .idle
      · cases hf : splitFrame s.rx with
        | none => exact .inl ⟨s, step_incomplete hr hp hf⟩
        | some f =>
            obtain ⟨h, c, rest⟩ := f
            have hstep := step_of_frame hr hp hf
            cases ha : answerTooLong c with
            | true => exact .inr ⟨by simpa [ha] using hstep, hp, h, c, rest, rfl, ha⟩
            | false =>
                obtain ⟨_, _, _, hobs⟩ := present_observable Config.sbox c s.draws
                obtain ⟨t, ht, -⟩ := hobs { s with rx := rest } hp rfl
                exact .inl ⟨t, by rw [hstep, ha, if_neg Bool.false_ne_true, ht]⟩
      · rw [step_busy hr hp]
        exact .inl (seqInv_progress hs hp)

end Progress

/-- Settles O40: a step gives a next state or refuses that one frame. -/
theorem invariantRulesOutFaults : Obligations.InvariantRulesOutFaults := by
  intro s hs
  obtain ⟨t, ht⟩ | ⟨hrefused, hp, hframe⟩ := step_completes_or_refuses hs
  · simp [ht]
  · rw [hrefused]
    refine ⟨fun f hf => (by cases hf), fun r hr => ?_⟩
    cases hr
    exact ⟨hp, rfl, hframe⟩

end Sys2Proof.Machine

/-! ## Frames and text

What the decoder reads is what the encoder writes, for commands (R71 to R78, R83) and for responses (R79 to R81), and the
text of a command is read back as the command (R84); and what an idle engine's step makes of a frame that is not whole, or
that `RLEN` cannot answer (R75, U6). -/

namespace Sys2Proof.Machine

/-! ### The rows of the opcode table, by the fields of word 0 -/

@[simp] theorem byteOf_and (w m : Word) (j : Nat) : byteOf (w &&& m) j = byteOf w j &&& byteOf m j :=
  BitVec.extractLsb'_and

theorem header_op_byte (h : Header) : byteOf h.w0 0 = h.op := rfl

theorem header_reserved_byte (h : Header) : (byteOf h.w0 1).extractLsb' 1 7 = h.reserved := by
  rw [← le32_reserved (byteOf h.w0 0) _ (byteOf h.w0 2) (byteOf h.w0 3), le32_byteOf, Header.reserved]

theorem header_ivp_byte (h : Header) : (byteOf h.w0 1).getLsbD 0 = h.ivp := by
  rw [← le32_bit8 (byteOf h.w0 0) _ (byteOf h.w0 2) (byteOf h.w0 3), le32_byteOf, Header.ivp]

theorem header_ivlen_byte (h : Header) : byteOf h.w0 3 = 0 ↔ h.ivlen = 0 :=
  BitVec.toNat_inj.symm

/-- Every row's mask covers `OP`, and its pattern has the row's opcode there (R78). -/
theorem opcodeRows_low_byte : ∀ r ∈ opcodeRows, byteOf r.mask 0 = 0xFF ∧ byteOf r.pattern 0 = r.op.code := by
  decide

theorem opcodeRows_code_injective : ∀ r ∈ opcodeRows, ∀ r' ∈ opcodeRows, r.op.code = r'.op.code → r = r' := by
  decide

theorem op_of_hits {w0 : Word} {r : OpRow} (hr : r ∈ opcodeRows) (hit : r.hits w0 = true) :
    byteOf w0 0 = r.op.code := by
  obtain ⟨hmask, hpattern⟩ := opcodeRows_low_byte r hr
  calc byteOf w0 0
    _ = byteOf w0 0 &&& 0xFF := (BitVec.and_allOnes (x := byteOf w0 0)).symm
    _ = byteOf (w0 &&& r.mask) 0 := by rw [byteOf_and, hmask]
    _ = r.op.code := by rw [← hpattern, eq_of_beq hit]

/-! ### Whole frames and incomplete ones -/

theorem encode_length (c : Cmd) : c.encode.length = 8 + c.key.length + c.ivField.length + c.data.length := by
  simp only [Cmd.encode, List.length_append, List.length_cons, List.length_nil, bytesLe32_length]

theorem header_frameLength {c : Cmd} (hc : c.fits) :
    c.header.frameLength = 8 + c.key.length + c.ivField.length + c.data.length := by
  rw [Header.frameLength, header_klen hc, header_ivlen hc, header_dlen hc]

theorem readHeader_length {bs body : Bytes} {h : Header} (hr : readHeader bs = some (h, body)) :
    bs.length = 8 + body.length := by
  unfold readHeader at hr
  split at hr
  · cases hr
    simp only [List.length_cons]
    omega
  · cases hr

theorem readHeader_isSome {bs : Bytes} (h8 : 8 ≤ bs.length) : ∃ h body, readHeader bs = some (h, body) := by
  match bs, h8 with
  | _ :: _ :: _ :: _ :: _ :: _ :: _ :: _ :: body, _ => exact ⟨_, body, rfl⟩

theorem readHeader_eq_none {bs : Bytes} : readHeader bs = none ↔ bs.length < 8 := by
  constructor
  · intro hr
    by_contra h8
    obtain ⟨h, body, hsome⟩ := readHeader_isSome (Nat.le_of_not_lt h8)
    simp [hr] at hsome
  · intro h8
    by_contra hr
    obtain ⟨⟨h, body⟩, hsome⟩ := Option.ne_none_iff_exists'.mp hr
    have := readHeader_length hsome
    omega

theorem splitFrame_eq_none {bs : Bytes} :
    splitFrame bs = none ↔
      bs.length < 8 ∨ ∃ h body, readHeader bs = some (h, body) ∧ bs.length < h.frameLength := by
  rw [← readHeader_eq_none]
  cases hr : readHeader bs with
  | none => simp [splitFrame, hr]
  | some f =>
      obtain ⟨h, body⟩ := f
      have hlen := readHeader_length hr
      have hshort : bs.length < h.frameLength ↔ ¬ h.klen + h.ivlen + h.dlen ≤ body.length := by
        rw [Header.frameLength]
        omega
      simp [splitFrame, hr, hshort]

/-! ### Response frames -/

theorem statusOfCode_code (st : Status) : statusOfCode st.code = some st := by
  rcases st with _ | (_ | _ | _) <;> rfl

/-- Word 0 of a response frame has no bit above `STATUS` (R79). -/
theorem status_word_upper (b : Byte) : (le32 b 0 0 0).extractLsb' 8 24 = 0 := by
  revert b
  decide

theorem readHeader_response (st : Status) (n : Word) (body : Bytes) :
    readHeader ([st.code, 0, 0, 0] ++ bytesLe32 n ++ body) = some (⟨le32 st.code 0 0 0, n⟩, body) := by
  simp [readHeader, bytesLe32]

/-- A status and a payload length, followed by at least that many bytes, are read as that response. -/
theorem readResponse_frame {st : Status} {n : Word} {out : Bytes} (hn : n.toNat = out.length) (rest : Bytes) :
    readResponse ([st.code, 0, 0, 0] ++ bytesLe32 n ++ (out ++ rest)) = some (⟨st, out⟩, rest) := by
  have hop : Header.op ⟨le32 st.code 0 0 0, n⟩ = st.code := byteOf_le32_zero _ _ _ _
  simp only [readResponse, readHeader_response, hop, statusOfCode_code, status_word_upper, Header.dlen, hn]
  simp

/-! ### The text of a command -/

@[simp] theorem hexValue_hexDigit (n : Nibble) : hexValue (hexDigit n) = some n := by
  revert n
  decide

theorem nibbles_append (b : Byte) : (b.extractLsb' 4 4 ++ b.extractLsb' 0 4 : Byte) = b := by
  revert b
  decide

/-- A space ends a run of digits. -/
theorem readHex_space (t : List Char) : readHex (' ' :: t) = ([], ' ' :: t) := by
  have hspace : hexValue ' ' = none := by decide
  cases t with
  | nil => rfl
  | cons c t => simp [readHex, hspace]

/-- Written bytes are read back where the text after them begins with no digits. -/
theorem readHex_hexText (bs : Bytes) {t : List Char} (ht : readHex t = ([], t)) :
    readHex (hexText bs ++ t) = (bs, t) := by
  induction bs with
  | nil => exact ht
  | cons b bs ih => simp [hexText, readHex, ih, nibbles_append]

@[simp] theorem afterPrefix_append (p t : List Char) : afterPrefix p (p ++ t) = some t := by
  induction p with
  | nil => rfl
  | cons c p ih => simp [afterPrefix, ih]

@[simp] theorem readMnemonic_append (op : Op) (t : List Char) : readMnemonic (mnemonicText op ++ t) = some (op, t) := by
  cases op <;> rfl

/-- What a command's text shows of its IV: nothing where there is none (R84). -/
def ivText : Option Bytes → List Char
  | none => []
  | some v => ivLabel ++ hexText v

theorem commandText_eq (i : Instr) :
    commandText i = mnemonicText i.op ++ (keyLabel ++ (hexText i.key ++
      (ivText i.toCmd.iv ++ (dataLabel ++ hexText i.data)))) := by
  have hiv : (if i.ivp then ivLabel ++ hexText i.ivField else []) = ivText i.toCmd.iv := by
    cases hp : i.ivp <;> simp [Cmd.iv, Instr.toCmd, hp, ivText]
  simp [commandText, hiv]

/-- The reader takes the mnemonic, the strings and the labels between them in the order of R84. -/
theorem readCommand_operands (op : Op) (key data : Bytes) (iv : Option Bytes) :
    readCommand (mnemonicText op ++ (keyLabel ++ (hexText key ++
      (ivText iv ++ (dataLabel ++ hexText data))))) = instrOfText op key iv data := by
  have hdata : readHex (hexText data) = (data, []) := by simpa using readHex_hexText data (t := []) rfl
  have hrest : readHex (dataLabel ++ hexText data) = ([], dataLabel ++ hexText data) := readHex_space _
  cases iv with
  | none =>
      have hno : ∀ t, afterPrefix ivLabel (dataLabel ++ t) = none := fun _ => rfl
      have hkey := readHex_hexText key hrest
      simp only [readCommand, readMnemonic_append, afterPrefix_append, ivText, List.nil_append, hkey, hno, hdata, if_true]
  | some v =>
      have hlabel : ∀ t, readHex (ivLabel ++ t) = ([], ivLabel ++ t) := fun _ => readHex_space _
      have hkey := readHex_hexText key (hlabel (hexText v ++ (dataLabel ++ hexText data)))
      have hiv := readHex_hexText v hrest
      simp only [readCommand, readMnemonic_append, afterPrefix_append, ivText, List.append_assoc, hkey, hiv, hdata, if_true]

theorem instrOfText_operands {i : Instr} (h : i.ivp = true ∨ i.ivField = []) :
    instrOfText i.op i.key i.toCmd.iv i.data = some i := by
  cases i with
  | senc p key v data =>
      cases p with
      | true => rfl
      | false =>
          obtain rfl : v = [] := by simpa [Instr.ivp, Instr.ivField] using h
          rfl
  | benc _ _ | bdec _ _ | sdec _ _ => rfl

/-! ### The statements -/

/-- Settles O2: the frame splits into its command, whose row is the instruction's own. -/
theorem decodeInvertsEncode : Obligations.DecodeInvertsEncode := by
  intro i rest hw
  rw [encode, decode_of_row (splitFrame_encode (toCmd_fits hw) rest) (rowOf_toCmd hw), instrOf_toCmd]

/-- Settles O3: the frame a decode takes is that of the instruction's command. -/
theorem encodeInvertsDecode : Obligations.EncodeInvertsDecode := by
  intro bs rest i hdec
  obtain ⟨hw, hs⟩ := decode_ok hdec
  obtain ⟨-, -, hbs⟩ := splitFrame_some hs
  exact ⟨hw, hbs⟩

/-- Settles O4: word 0 is put together from its bytes, and a row is told by those. -/
theorem rowsMatchWhatTheFieldsSay : Obligations.RowsMatchWhatTheFieldsSay := by
  intro h op
  rw [← le32_byteOf h.w0, rowOf_le32, header_op_byte, header_reserved_byte, header_ivp_byte, header_ivlen_byte]

/-- Settles O5: both rows' opcodes are the low byte of word 0. -/
theorem rowsAreExclusive : Obligations.RowsAreExclusive := by
  intro w0 r r' hr hr' hit hit'
  exact opcodeRows_code_injective r hr r' hr' ((op_of_hits hr hit).symm.trans (op_of_hits hr' hit'))

/-- Settles O6: a frame that is split off is the encoding of its command. -/
theorem frameLengthComesFromItsHeader : Obligations.FrameLengthComesFromItsHeader := by
  refine ⟨fun bs rest h c hs => ?_, fun bs => splitFrame_eq_none⟩
  obtain ⟨rfl, hc, rfl⟩ := splitFrame_some hs
  have hlen : c.encode.length = c.header.frameLength := (encode_length c).trans (header_frameLength hc).symm
  refine ⟨readHeader_encode c rest, (header_klen hc).symm, (header_ivlen hc).symm, (header_dlen hc).symm,
    header_frameLength hc, (List.drop_left' hlen).symm, ?_⟩
  simp [hlen]

/-- Settles O7: `RLEN` holds the payload's length exactly when that is below `2^32`. -/
theorem responseFramesReadBack : Obligations.ResponseFramesReadBack := by
  intro r rest
  constructor
  · intro hfits
    refine ⟨_, if_pos hfits, ?_, ?_⟩
    · simp only [List.length_append, List.length_cons, List.length_nil, bytesLe32_length]
    · rw [List.append_assoc]
      exact readResponse_frame (by rw [BitVec.toNat_ofNat, Nat.mod_eq_of_lt hfits]) rest
  · intro hlong
    exact if_neg (Nat.not_lt_of_le hlong)

/-- Settles O8: the operands are read back, and they are the instruction's. -/
theorem textOfACommandReadsBack : Obligations.TextOfACommandReadsBack := by
  intro i hshown
  rw [commandText_eq, readCommand_operands, instrOfText_operands hshown]

/-- Settles O54: the instruction's command is one that `RLEN` cannot answer, and both ways of accepting its frame refuse
that. -/
theorem stepRefusesWhatRlenCannotAnswer : Obligations.StepRefusesWhatRlenCannotAnswer := by
  intro s key iv p rest ivp hr hp hdec hvalid hlong
  obtain ⟨-, hs⟩ := decode_ok hdec
  have htoo := answerTooLong_senc hvalid hlong
  exact ⟨by rw [step_of_frame hr hp hs, if_pos htoo], fun S => accept_refuses hp hs htoo⟩

/-- Settles O1: each frame is that of its command (R86), so it decodes to it. -/
theorem workedFramesReadAsTheirCommands : Obligations.WorkedFramesReadAsTheirCommands := by
  unfold Obligations.WorkedFramesReadAsTheirCommands
  intro key iv hello f1 f2 f3
  have h1 : f1 = encode (.benc key (List.replicate 8 0)) ++ [] := by decide
  have h2 : f2 = encode (.senc true key iv hello) ++ [] := by decide
  have h3 : f3 = encode (.senc false key [] []) ++ [] := by decide
  refine ⟨⟨?_, rfl, rfl⟩, ⟨?_, rfl, rfl⟩, ⟨?_, rfl⟩, by decide, by decide⟩
  · rw [h1, decodeInvertsEncode _ _ (by decide)]
  · rw [h2, decodeInvertsEncode _ _ (by decide)]
  · rw [h3, decodeInvertsEncode _ _ (by decide)]

/-- Settles O53: without a whole frame there is nothing to fetch. -/
theorem stepWaitsForAWholeFrame : Obligations.StepWaitsForAWholeFrame :=
  fun _ hr hp hs => step_incomplete hr hp hs

end Sys2Proof.Machine

/-! ## The leaf functions, and the step that derives the subkeys

What `Sub` (R101), `F` (R105) and the key schedule (R102) give, nibble by nibble, bit by bit and byte by byte; and that KEXP
alone writes the subkeys (R104). -/

namespace Sys2Proof.Machine

/-! ### Substitution -/

/-- Above its last nibble, a string of nibbles reads as the string without it. -/
theorem extract_nibble_succ {w : Nat} (x : BitVec w) (d : Nibble) (n : Nat) :
    (x ++ d).extractLsb' (4 * (n + 1)) 4 = x.extractLsb' (4 * n) 4 := by
  rw [BitVec.extractLsb'_append_eq_of_le (by omega), Nat.mul_succ, Nat.add_sub_cancel]

@[simp] theorem nibble_sub (S : SBox) (t : Word) (i : Fin 8) : nibble (sub S t) i.val = S i (nibble t i.val) := by
  -- The width as `sub` builds it, one nibble at a time.
  change BitVec.extractLsb' (n := 4 + 4 + 4 + 4 + 4 + 4 + 4 + 4) (4 * i.val) 4 (sub S t) = _
  unfold sub
  fin_cases i <;>
    simp only [extract_nibble_succ, Nat.mul_zero, BitVec.extractLsb'_append_eq_right, BitVec.extractLsb'_eq_self] <;> rfl

/-! ### Rotation -/

theorem rotl32_eq_rotateLeft (w : Word) {r : Nat} (hr : r < 32) : rotl32 w r = w.rotateLeft r := by
  rw [BitVec.rotateLeft_def, Nat.mod_eq_of_lt hr, rotl32]

theorem rotl32_getLsbD (w : Word) {r j : Nat} (hr : r < 32) (hj : j < 32) :
    (rotl32 w r).getLsbD ((j + r) % 32) = w.getLsbD j := by
  rw [rotl32_eq_rotateLeft w hr, BitVec.getLsbD_rotateLeft, Nat.mod_eq_of_lt hr]
  obtain hstays | hwraps := Nat.lt_or_ge (j + r) 32
  · simp [Nat.mod_eq_of_lt hstays, hstays]
  · have hpos : (j + r) % 32 = j + r - 32 := by omega
    have hlow : j + r - 32 < r := by omega
    have hback : 32 - r + (j + r - 32) = j := by omega
    simp [hpos, hlow, hback]

/-! ### The key schedule -/

theorem le32_toNat (a b c d : Byte) :
    (le32 a b c d).toNat = a.toNat + 2 ^ 8 * b.toNat + 2 ^ 16 * c.toNat + 2 ^ 24 * d.toNat := by
  change BitVec.toNat (w := 8 + 8 + 8 + 8) (d ++ c ++ b ++ a) = _
  rw [BitVec.toNat_append, ← Nat.shiftLeft_add_eq_or_of_lt a.isLt, BitVec.toNat_append,
    ← Nat.shiftLeft_add_eq_or_of_lt b.isLt, BitVec.toNat_append, ← Nat.shiftLeft_add_eq_or_of_lt c.isLt]
  simp only [Nat.shiftLeft_eq]
  omega

theorem byteOf_wordAt (bs : Bytes) (off : Nat) {j : Nat} (hj : j < 4) :
    byteOf (wordAt bs off) j = bs.getD (off + j) 0 := by
  interval_cases j
  · exact byteOf_le32_zero _ _ _ _
  · exact byteOf_le32_one _ _ _ _
  · exact byteOf_le32_two _ _ _ _
  · exact byteOf_le32_three _ _ _ _

theorem subkeyAt_subkeysOf (bs : Bytes) (i : Fin 8) : subkeyAt (subkeysOf bs) i = wordAt bs (4 * i.val) := by
  fin_cases i <;> rfl

theorem keySchedule_ok {key : Bytes} (h : key.length = 32) : keySchedule key = .ok (subkeysOf key) := if_pos h

theorem keySchedule_error {key : Bytes} (h : key.length ≠ 32) : keySchedule key = .error .invalidKeyLength := if_neg h

theorem getD_eq_byteOf_subkeyAt (key : Bytes) {n : Nat} (hn : n < 32) :
    key.getD n 0 = byteOf (subkeyAt (subkeysOf key) ⟨n / 4, by omega⟩) (n % 4) := by
  rw [subkeyAt_subkeysOf, byteOf_wordAt _ _ (Nat.mod_lt n (by decide)), Nat.div_add_mod]

/-- The subkeys hold every byte of the key. -/
theorem subkeysOf_inj {k1 k2 : Bytes} (h1 : k1.length = 32) (h2 : k2.length = 32) (h : subkeysOf k1 = subkeysOf k2) :
    k1 = k2 := by
  refine List.ext_getElem (h1.trans h2.symm) fun n hn1 hn2 => ?_
  have hn : n < 32 := h1 ▸ hn1
  calc k1[n] = k1.getD n 0 := (List.getD_eq_getElem _ 0 hn1).symm
    _ = k2.getD n 0 := by rw [getD_eq_byteOf_subkeyAt k1 hn, getD_eq_byteOf_subkeyAt k2 hn, h]
    _ = k2[n] := List.getD_eq_getElem _ 0 hn2

/-! ### KEXP and the subkey registers -/

section Kexp

variable {S : SBox} {s t : State}

theorem isBlock_iff (op : Op) : op.isBlock = true ↔ op = .benc ∨ op = .bdec := by
  cases op <;> decide

/-- KEXP needs no more of the command than an operation and a 32-byte key. -/
theorem kexp_step_of_key {op : Op} (hp : s.phase = .kexp) (ho : s.cmd.operation = some op) (hkey : s.cmd.key.length = 32) :
    seqStep S s = .next { s with k := subkeysOf s.cmd.key, phase := if op.isBlock then .load else .ivsel } := by
  simp only [seqStep_kexp hp, kexpStep, ho, memRead_key hkey]

theorem seqStep_keeps_subkeys (hp : s.phase ≠ .kexp) (h : seqStep S s = .next t) : t.k = s.k := by
  cases seqMove_of_seqStep h with
  | expandKey hkexp => exact absurd hkexp hp
  | _ => rfl

end Kexp

/-! ### What the statements say of the leaf functions and of KEXP -/

/-- Settles O10: the rotation moves each bit of what `Sub` makes of the sum. -/
theorem roundFunctionAddsSubstitutesRotates : Obligations.RoundFunctionAddsSubstitutesRotates := by
  refine ⟨fun S a k j hj => ?_, by decide, by decide, by decide, by decide, by decide, by decide⟩
  calc (roundF S a k).getLsbD ((j + 11) % 32) = (sub S (a + k)).getLsbD j := rotl32_getLsbD _ (by decide) hj
    _ = _ := by rw [← BitVec.toNat_add, BitVec.ofNat_toNat, BitVec.setWidth_eq]

/-- Settles O11: each subkey is four bytes of the key in place, and every byte of the key is in one. -/
theorem keyScheduleSlicesTheKey : Obligations.KeyScheduleSlicesTheKey := by
  refine ⟨fun key hkey => ⟨_, keySchedule_ok hkey, fun i => ?_⟩, fun key => keySchedule_error, fun k1 k2 h1 h2 h => ?_,
    by decide⟩
  · rw [subkeyAt_subkeysOf, wordAt, le32_toNat]
  · rw [keySchedule_ok h1, keySchedule_ok h2] at h
    exact subkeysOf_inj h1 h2 (Except.ok.inj h)

/-- Settles O22: KEXP's one effect, and of the moves only KEXP's writes `K`. -/
theorem kexpDerivesTheSubkeys : Obligations.KexpDerivesTheSubkeys := by
  refine ⟨fun S s op hp ho hkey => ⟨_, keySchedule_ok hkey, ?_⟩, fun S s t => seqStep_keeps_subkeys⟩
  simp only [kexp_step_of_key hp ho hkey, isBlock_iff]

/-- Settles O9, with the three examples of R101. -/
theorem subWorksNibbleByNibble : Obligations.SubWorksNibbleByNibble :=
  ⟨nibble_sub, by decide, by decide, by decide⟩

end Sys2Proof.Machine

/-! ## The block transform

The two key orders mirror each other (R120), so the rounds of one direction undo those of the other (R129); and the steps
LOAD, ROUND and PACK, and the commands BENC and BDEC, are that transform (R124 to R128). -/

namespace Sys2Proof.Machine

/-! ### The key orders -/

theorem encIdx_ascending {r : Nat} (h : r < 24) : (encIdx r).val = r % 8 := by
  rw [encIdx, dif_pos h]

theorem encIdx_descending {r : Nat} (h : 24 ≤ r) : (encIdx r).val = 31 - r := by
  rw [encIdx, dif_neg (Nat.not_lt_of_le h)]

theorem decIdx_ascending {r : Nat} (h : r < 8) : (decIdx r).val = r := by
  rw [decIdx, dif_pos h]

theorem decIdx_descending {r : Nat} (h : 8 ≤ r) : (decIdx r).val = 7 - r % 8 := by
  rw [decIdx, dif_neg (Nat.not_lt_of_le h)]

/-- The first 8 rounds of one direction are the last 8 of the other. -/
theorem decIdx_eq_encIdx_mirror {r : Nat} (hr : r < 32) : decIdx r = encIdx (31 - r) := by
  apply Fin.ext
  obtain h8 | h8 := Nat.lt_or_ge r 8
  · rw [decIdx_ascending h8, encIdx_descending (by omega)]
    omega
  · rw [decIdx_descending h8, encIdx_ascending (by omega)]
    omega

theorem encIdx_eq_decIdx_mirror {r : Nat} (hr : r < 32) : encIdx r = decIdx (31 - r) := by
  rw [decIdx_eq_encIdx_mirror (by omega), Nat.sub_sub_self (by omega)]

theorem idxOf_eq (d : Dir) : idxOf d = if d = .encrypt then encIdx else decIdx := by
  cases d <;> rfl

/-! ### Rounds undone -/

section Inverse

variable (S : SBox) (K : Subkeys) {idx idx' : Nat → Fin 8}

/-- A round on the swapped result of the round with the same subkey gives back the swapped pair (R129). -/
theorem roundPair_swap_roundPair (k : Word) (p : Word × Word) :
    roundPair S k (roundPair S k p).swap = p.swap := by
  simp [roundPair, Prod.swap]

/-- With the mirrored key order, `n` rounds on the swapped pair after `m + n` undo the last `n` of those. -/
theorem rounds_swap_rounds (p : Word × Word) (m n : Nat) (hmirror : ∀ r, r < n → idx' r = idx (m + n - 1 - r)) :
    rounds S K idx' (rounds S K idx p (m + n)).swap n = (rounds S K idx p m).swap := by
  induction n generalizing m with
  | zero => rfl
  | succ n ih =>
      have hrest := ih (m + 1) fun r hr => by rw [hmirror r (by omega)]; congr 1; omega
      have hlast : idx' n = idx m := by rw [hmirror n n.lt_succ_self]; congr 1; omega
      rw [rounds, show m + (n + 1) = m + 1 + n by omega, hrest, hlast, rounds, roundPair_swap_roundPair]

theorem blockCore_eq (b : Block) :
    blockCore S K idx b =
      packHalves (rounds S K idx (firstHalf b, secondHalf b) 32).2 (rounds S K idx (firstHalf b, secondHalf b) 32).1 :=
  rfl

/-- The packing swaps the final pair (R122). -/
theorem halves_blockCore (b : Block) :
    (firstHalf (blockCore S K idx b), secondHalf (blockCore S K idx b))
      = (rounds S K idx (firstHalf b, secondHalf b) 32).swap := by
  rw [blockCore_eq, firstHalf_packHalves, secondHalf_packHalves, Prod.swap]

/-- The transform in the mirrored order starts from the swapped final pair, so it comes back to the halves of the block
(R129). -/
theorem blockCore_blockCore (b : Block) (hmirror : ∀ r, r < 32 → idx' r = idx (31 - r)) :
    blockCore S K idx' (blockCore S K idx b) = b := by
  have hback : rounds S K idx' (rounds S K idx (firstHalf b, secondHalf b) 32).swap 32 = (secondHalf b, firstHalf b) :=
    rounds_swap_rounds S K (firstHalf b, secondHalf b) 0 32 hmirror
  rw [blockCore_eq, halves_blockCore, hback, packHalves_halves]

end Inverse

theorem blockEnc_ok {key : Bytes} (h : key.length = 32) (S : SBox) (b : Block) :
    blockEnc S key b = .ok (blockCore S (subkeysOf key) encIdx b) := by
  rw [blockEnc, keySchedule_ok h, Except.map]

theorem blockDec_ok {key : Bytes} (h : key.length = 32) (S : SBox) (b : Block) :
    blockDec S key b = .ok (blockCore S (subkeysOf key) decIdx b) := by
  rw [blockDec, keySchedule_ok h, Except.map]

/-- Settles O14: the key orders mirror each other, so each direction undoes the other. -/
theorem blockTransformRoundTrips : Obligations.BlockTransformRoundTrips := by
  intro S key b hkey
  refine ⟨⟨_, blockEnc_ok hkey S b, ?_⟩, ⟨_, blockDec_ok hkey S b, ?_⟩⟩
  · rw [blockDec_ok hkey, blockCore_blockCore S _ b fun r => decIdx_eq_encIdx_mirror]
  · rw [blockEnc_ok hkey, blockCore_blockCore S _ b fun r => encIdx_eq_decIdx_mirror]

/-! ### LOAD, ROUND and PACK -/

section Steps

variable {S : SBox} {s : State} {op : Op}

theorem exists_block_op {c : Cmd} (h : c.operation = some .benc ∨ c.operation = some .bdec) :
    ∃ op, c.operation = some op ∧ op.isBlock = true := by
  obtain h | h := h <;> exact ⟨_, h, rfl⟩

theorem exists_stream_op {c : Cmd} (h : c.operation = some .senc ∨ c.operation = some .sdec) :
    ∃ op, c.operation = some op ∧ op.isBlock = false := by
  obtain h | h := h <;> exact ⟨_, h, rfl⟩

/-- LOAD of a block command whose data is the block `b` (R124). -/
theorem load_block_data {b : Block} (hp : s.phase = .load) (ho : s.cmd.operation = some op) (hb : op.isBlock = true)
    (hd : s.cmd.data = blockBytes b) : seqStep S s = .next (loadPair b s) := by
  rw [load_block hp ho hb (by rw [hd, blockBytes_length]), hd, blockOf_blockBytes]

theorem round_step (hp : s.phase = .round) (hr : s.rnd.val < 32) :
    seqStep S s =
      .next { s with n1 := s.n2, n2 := s.n1 ^^^ roundF S s.n2 (subkeyAt s.k (idxOf s.dir s.rnd.val)),
                     rnd := ⟨s.rnd.val + 1, by omega⟩, phase := if s.rnd.val + 1 = 32 then .pack else .round } := by
  rw [seqStep_round hp, roundStep, dif_pos hr]
  rfl

theorem pack_block (hp : s.phase = .pack) (ho : s.cmd.operation = some op) (hb : op.isBlock = true) :
    seqStep S s =
      .next { appendResp (blockBytes (packHalves s.n2 s.n1)) s with ks := packHalves s.n2 s.n1, phase := .done } := by
  simp only [seqStep_pack hp, packStep, ho, hb, if_true]

theorem pack_stream (hp : s.phase = .pack) (ho : s.cmd.operation = some op) (hb : op.isBlock = false) :
    seqStep S s = .next { s with ks := packHalves s.n2 s.n1, phase := .mix } := by
  simp only [seqStep_pack hp, packStep, ho, hb, Bool.false_eq_true, if_false]

/-- From LOAD on, 34 steps leave the block transform of LOAD's source in `KS` (R126). -/
theorem load_round_pack_ks {src : Block} (ho : s.cmd.operation = some op) (hload : seqStep S s = .next (loadPair src s)) :
    ∃ t, seqRun S 34 s = .next t ∧ t.ks = blockCore S s.k (idxOf s.dir) src := by
  refine ⟨_, (seqRun_succ_of_step hload).trans (transform_reached src ho).1, ?_⟩
  split <;> rfl

end Steps

/-- Settles O26: one round is `roundPair`, and 32 of them are the loop. -/
theorem roundUpdatesThePair : Obligations.RoundUpdatesThePair := by
  refine ⟨fun S s hp hr => ⟨_, round_step hp hr, ?_, rfl⟩, fun S s hp h0 => ?_⟩
  · rw [idxOf_eq, ite_apply]
  · refine ⟨_, (rounds_reached hp (Fin.ext h0) 32 (Nat.le_refl 32)).1, rfl, ?_⟩
    rw [idxOf_eq]

/-- Settles O27: PACK's two effects, and the run from either LOAD. -/
theorem packSwapsTheHalves : Obligations.PackSwapsTheHalves := by
  constructor
  · intro S s hp
    constructor
    · intro hop
      obtain ⟨op, ho, hb⟩ := exists_block_op hop
      exact pack_block hp ho hb
    · intro hop
      obtain ⟨op, ho, hb⟩ := exists_stream_op hop
      exact pack_stream hp ho hb
  · intro S s src hp hsrc
    rw [← idxOf_eq]
    obtain ⟨hop, hdata⟩ | ⟨hop, rfl⟩ := hsrc
    · obtain ⟨op, ho, hb⟩ := exists_block_op hop
      exact load_round_pack_ks ho (load_block_data hp ho hb hdata)
    · obtain ⟨op, ho, hb⟩ := exists_stream_op hop
      exact load_round_pack_ks ho (load_stream hp ho hb)

/-! ### BENC and BDEC -/

/-- A block instruction with a 32-byte key and an 8-byte block passes CHECK (R162). -/
theorem valid_block_instr {i : Instr} (hb : i.op.isBlock = true) (hkey : i.key.length = 32) (hdata : i.data.length = 8) :
    Valid i.toCmd i.op := by
  cases i with
  | senc | sdec => cases hb
  | benc | bdec =>
      exact ⟨rfl, rfl, fun _ => rfl, nofun, fun _ => hdata, hkey, nofun, nofun⟩

/-- What a block instruction writes, and its response: the block transform in its row's key order (R127, R128). -/
theorem exec_block_answers {i : Instr} {b : Block} {s : State} (hp : s.phase = .idle) (hb : i.op.isBlock = true)
    (hkey : i.key.length = 32) (hdata : i.data = blockBytes b) :
    ∃ t, exec i s = .next t ∧
      t = { s with k := t.k, n1 := t.n1, n2 := t.n2, ks := t.ks, rnd := t.rnd,
                   cmd := t.cmd, dir := t.dir, resp := t.resp,
                   tx := s.tx ++ [⟨.ok, blockBytes
                     (blockCore Config.sbox (subkeysOf i.key) (idxOf (dirOf (some i.op))) b)⟩] } := by
  have v := valid_block_instr hb hkey (by rw [hdata, blockBytes_length])
  obtain ⟨t, ht, et⟩ := present_block (S := Config.sbox) hp v hb
  refine ⟨t, by rw [exec_eq_present, ht], ?_⟩
  have hsrc : blockOf i.toCmd.data = b := congrArg blockOf hdata
  rw [hsrc] at et
  rw [et]
  rfl

/-- Settles O41: BENC's row selects the encrypt order. -/
theorem bencAnswersTheEncryptedBlock : Obligations.BencAnswersTheEncryptedBlock := by
  intro key b s hp hkey
  obtain ⟨t, ht, et⟩ := exec_block_answers (i := .benc key (blockBytes b)) hp rfl hkey rfl
  exact ⟨_, t, blockEnc_ok hkey _ b, ht, et⟩

/-- Settles O42: BDEC's row selects the decrypt order. -/
theorem bdecAnswersTheDecryptedBlock : Obligations.BdecAnswersTheDecryptedBlock := by
  intro key b s hp hkey
  obtain ⟨t, ht, et⟩ := exec_block_answers (i := .bdec key (blockBytes b)) hp rfl hkey rfl
  exact ⟨_, t, blockDec_ok hkey _ b, ht, et⟩

/-! ### The key orders written out, the last round, and LOAD's sources -/

/-- Settles O12, with the two orders written out. -/
theorem keyOrdersMirrorEachOther : Obligations.KeyOrdersMirrorEachOther :=
  ⟨fun _ => encIdx_ascending, fun _ h _ => encIdx_descending h, fun _ => decIdx_ascending,
    fun _ h _ => decIdx_descending h, by decide, by decide, fun _ => decIdx_eq_encIdx_mirror⟩

/-- Settles O13: the last round moves the second half to the front, and the packing moves it back. -/
theorem lastRoundChangesTheFirstHalfInPlace : Obligations.LastRoundChangesTheFirstHalfInPlace := by
  intro S K idx b p
  have hlast : rounds S K idx (firstHalf b, secondHalf b) 32 = roundPair S (subkeyAt K (idx 31)) p := rfl
  rw [blockCore_eq, hlast, roundPair]

/-- Settles O25: LOAD's one effect on each of its sources. -/
theorem loadTakesItsSource : Obligations.LoadTakesItsSource := by
  constructor
  · intro S s b hp hop hdata
    obtain ⟨op, ho, hb⟩ := exists_block_op hop
    exact load_block_data hp ho hb hdata
  · intro S s hp hop
    obtain ⟨op, ho, hb⟩ := exists_stream_op hop
    exact load_stream hp ho hb

end Sys2Proof.Machine

/-! ## The stream cipher

A stream's output is given by its first 8 bytes and by what follows them: masking a block keeps its length, so the
blocks of the output are the masked blocks of the input (R141, R142). From these two equations come the round trip
(R151), the lengths (R152), common beginnings (R148 (5)) and self-synchronisation (R149 (4)). Then the steps IVSEL, NEXT
and MIX (R144 to R146), and the commands SENC and SDEC (R148, R149). -/

namespace Sys2Proof.Machine

/-! ### Masking a block -/

section Mask

variable (S : SBox) (K : Subkeys) (gamma : Block)

theorem xorBytes_take_left (a b : Bytes) (n : Nat) : xorBytes (a.take n) b = (xorBytes a b).take n :=
  List.ext_getElem (by simp [Nat.min_assoc]) fun _ _ _ => by simp [xorBytes]

theorem xorBytes_take_right {a b : Bytes} {n : Nat} (h : a.length ≤ n) : xorBytes a (b.take n) = xorBytes a b :=
  List.ext_getElem (by simp; omega) fun _ _ _ => by simp [xorBytes]

/-- A string of at most 8 bytes as a block is that string and then zero bytes (R143). -/
theorem blockBytes_blockOf_short {bs : Bytes} (h : bs.length ≤ 8) :
    blockBytes (blockOf bs) = bs ++ List.replicate (8 - bs.length) 0 := by
  match bs, h with
  | [], _ | [_], _ | [_, _], _ | [_, _, _], _ | [_, _, _, _], _ | [_, _, _, _, _], _ | [_, _, _, _, _, _], _
  | [_, _, _, _, _, _, _], _ | [_, _, _, _, _, _, _, _], _ => rfl

/-- A block of a stream under the keystream block of a chaining value (R141, R142). -/
def masked (b : Bytes) : Bytes := xorBytes b (blockBytes (blockCore S K encIdx gamma))

@[simp] theorem masked_nil : masked S K gamma [] = [] := rfl

@[simp] theorem masked_length (b : Bytes) : (masked S K gamma b).length = min b.length 8 := by
  rw [masked, xorBytes_length, blockBytes_length]

theorem masked_masked {b : Bytes} (h : b.length ≤ 8) : masked S K gamma (masked S K gamma b) = b :=
  xorBytes_cancel b _ h

theorem masked_take (b : Bytes) (n : Nat) : masked S K gamma (b.take n) = (masked S K gamma b).take n :=
  xorBytes_take_left b _ n

end Mask

/-! ### The stream by its first 8 bytes and the rest -/

section Stream

variable (S : SBox) (op : Op) (K : Subkeys) (gamma : Block)

/-- The output of a whole stream in the direction of its row, from a chaining value (R141, R142). -/
def cfbStream (s : Bytes) : Bytes := cfbFrom S op K gamma (streamBlocks s)

theorem cfbEncFrom_streamBlocks (s : Bytes) :
    cfbEncFrom S K gamma (streamBlocks s) = cfbStream S .senc K gamma s := rfl

theorem cfbDecFrom_streamBlocks (s : Bytes) :
    cfbDecFrom S K gamma (streamBlocks s) = cfbStream S .sdec K gamma s := rfl

@[simp] theorem cfbStream_nil : cfbStream S op K gamma [] = [] := cfbFrom_nil K gamma

theorem cfbStream_of_ne_nil {s : Bytes} (h : s ≠ []) :
    cfbStream S op K gamma s =
      masked S K gamma (s.take 8)
        ++ cfbStream S op K (mixed op (s.take 8) (masked S K gamma (s.take 8))) (s.drop 8) := by
  rw [cfbStream, streamBlocks_of_ne_nil h, cfbFrom_cons]
  rfl

/-- A masked block has 8 bytes, or is the last. -/
theorem masked_full_or_last (s : Bytes) : (masked S K gamma (s.take 8)).length = 8 ∨ s.drop 8 = [] := by
  rw [masked_length, List.length_take, List.drop_eq_nil_iff]
  omega

@[simp] theorem cfbStream_take_eight (s : Bytes) :
    (cfbStream S op K gamma s).take 8 = masked S K gamma (s.take 8) := by
  by_cases hs : s = []
  · simp [hs]
  · rw [cfbStream_of_ne_nil S op K gamma hs]
    obtain hfull | hlast := masked_full_or_last S K gamma s
    · exact List.take_left' hfull
    · rw [hlast, cfbStream_nil, List.append_nil, List.take_of_length_le (by simp)]

@[simp] theorem cfbStream_drop_eight (s : Bytes) :
    (cfbStream S op K gamma s).drop 8 =
      cfbStream S op K (mixed op (s.take 8) (masked S K gamma (s.take 8))) (s.drop 8) := by
  by_cases hs : s = []
  · simp [hs]
  · rw [cfbStream_of_ne_nil S op K gamma hs]
    obtain hfull | hlast := masked_full_or_last S K gamma s
    · exact List.drop_left' hfull
    · rw [hlast, cfbStream_nil, List.append_nil, List.drop_eq_nil_of_le (by simp)]

theorem eq_of_first_block_and_rest {a b : Bytes} (hfirst : a.take 8 = b.take 8) (hrest : a.drop 8 = b.drop 8) :
    a = b := by
  rw [← List.take_append_drop 8 a, hfirst, hrest, List.take_append_drop]

/-- Induction over a stream, block by block (R54). -/
theorem stream_induction {motive : Bytes → Prop} (nil : motive [])
    (block : ∀ s, s ≠ [] → motive (s.drop 8) → motive s) (s : Bytes) : motive s := by
  by_cases hs : s = []
  · exact hs ▸ nil
  · exact block s hs (stream_induction nil block (s.drop 8))
termination_by s.length
decreasing_by
  have := List.length_pos_iff.mpr hs
  simp
  omega

/-- Masking keeps the length of every block, so that of the stream (R152). -/
@[simp] theorem cfbStream_length (s : Bytes) : (cfbStream S op K gamma s).length = s.length := by
  induction s using stream_induction generalizing gamma with
  | nil => rw [cfbStream_nil]
  | block s hs ih =>
      have hhead := congrArg List.length (cfbStream_take_eight S op K gamma s)
      have hrest := congrArg List.length (cfbStream_drop_eight S op K gamma s)
      rw [ih] at hrest
      simp only [List.length_take, List.length_drop, masked_length] at hhead hrest
      omega

/-- The first `m` bytes of the output are the output of the first `m` bytes. -/
theorem cfbStream_take (s : Bytes) (m : Nat) :
    cfbStream S op K gamma (s.take m) = (cfbStream S op K gamma s).take m := by
  induction s using stream_induction generalizing gamma m with
  | nil => rw [List.take_nil, cfbStream_nil, List.take_nil]
  | block s hs ih =>
      refine eq_of_first_block_and_rest ?_ ?_
      · calc (cfbStream S op K gamma (s.take m)).take 8
            = masked S K gamma ((s.take 8).take m) := by
                rw [cfbStream_take_eight, List.take_take, List.take_take, Nat.min_comm]
          _ = ((cfbStream S op K gamma s).take m).take 8 := by
                rw [masked_take, ← cfbStream_take_eight, List.take_take, List.take_take, Nat.min_comm]
      · rw [cfbStream_drop_eight, List.drop_take, List.drop_take, cfbStream_drop_eight]
        obtain hm | hm := Nat.le_total m 8
        · rw [Nat.sub_eq_zero_of_le hm, List.take_zero, List.take_zero, cfbStream_nil]
        · rw [List.take_take, Nat.min_eq_left hm, ih]

/-- Decryption chains from the same ciphertext blocks as encryption, so it masks each block again with the same
keystream (R151). -/
theorem cfbStream_sdec_senc (s : Bytes) : cfbStream S .sdec K gamma (cfbStream S .senc K gamma s) = s := by
  induction s using stream_induction generalizing gamma with
  | nil => rw [cfbStream_nil, cfbStream_nil]
  | block s hs ih =>
      refine eq_of_first_block_and_rest ?_ ?_
      · rw [cfbStream_take_eight, cfbStream_take_eight, masked_masked S K gamma (List.length_take_le 8 s)]
      · rw [cfbStream_drop_eight, cfbStream_drop_eight, cfbStream_take_eight]
        exact ih _

/-- Block `i` of the plaintext of an envelope, by the ciphertext block before it, or the IV, and its own (R149 (4)). -/
theorem cfbStream_sdec_block (e : Bytes) (i : Nat) :
    ((cfbStream S .sdec K (blockOf e) (e.drop 8)).drop (8 * i)).take 8 =
      masked S K (blockOf (e.drop (8 * i))) ((e.drop (8 * i + 8)).take 8) := by
  induction i generalizing e with
  | zero => rw [Nat.mul_zero, List.drop_zero, List.drop_zero, cfbStream_take_eight]
  | succ i ih =>
      have hrest : (cfbStream S .sdec K (blockOf e) (e.drop 8)).drop 8 =
          cfbStream S .sdec K (blockOf (e.drop 8)) ((e.drop 8).drop 8) := by
        rw [cfbStream_drop_eight]
        exact congrArg (cfbStream S .sdec K · _) (blockOf_take (e.drop 8))
      rw [Nat.mul_succ, Nat.add_comm (8 * i) 8, ← List.drop_drop, hrest, ih, List.drop_drop,
        List.drop_drop, Nat.add_assoc]

end Stream

/-! ### CfbEnc and CfbDec -/

theorem cfbEnc_eq_ok_iff {S : SBox} {key : Bytes} {iv : Block} {p e : Bytes} :
    cfbEnc S key iv p = .ok e ↔
      key.length = 32 ∧ e = blockBytes iv ++ cfbStream S .senc (subkeysOf key) iv p := by
  by_cases hkey : key.length = 32
  · simp [cfbEnc, keySchedule_ok hkey, Except.map, hkey, cfbEncFrom_streamBlocks, eq_comm]
  · simp [cfbEnc, keySchedule_error hkey, Except.map, hkey]

theorem cfbDec_eq_ok_iff {S : SBox} {key e p : Bytes} :
    cfbDec S key e = .ok p ↔
      key.length = 32 ∧ 8 ≤ e.length ∧ p = cfbStream S .sdec (subkeysOf key) (blockOf e) (e.drop 8) := by
  by_cases hkey : key.length = 32
  · by_cases hlen : e.length < 8
    · simp [cfbDec, keySchedule_ok hkey, Except.bind, hlen, Nat.not_le_of_lt hlen]
    · simp [cfbDec, keySchedule_ok hkey, Except.bind, hkey, hlen, Nat.le_of_not_lt hlen, cfbDecFrom_streamBlocks,
        eq_comm]
  · simp [cfbDec, keySchedule_error hkey, Except.bind, hkey]

/-- An envelope decrypts to its plaintext (R151). -/
theorem cfbDec_of_cfbEnc {S : SBox} {key : Bytes} {iv : Block} {p e : Bytes} (h : cfbEnc S key iv p = .ok e) :
    cfbDec S key e = .ok p := by
  obtain ⟨hkey, rfl⟩ := cfbEnc_eq_ok_iff.mp h
  refine cfbDec_eq_ok_iff.mpr ⟨hkey, by simp, ?_⟩
  rw [blockOf_blockBytes_append, List.drop_left' (blockBytes_length iv), cfbStream_sdec_senc]

theorem respond_eq_ok_iff {r : Except CmdFault Bytes} {out : Bytes} : respond r = ⟨.ok, out⟩ ↔ r = .ok out := by
  cases r <;> simp [respond]

theorem sencResponse_eq {key : Bytes} (hkey : key.length = 32) (S : SBox) (iv : Block) (p : Bytes) :
    sencResponse S key (blockBytes iv) p = sencDrawnResponse S key iv p := by
  simp [sencResponse, sencDrawnResponse, hkey]

/-- Settles O15: an `OK` response of SENC is an envelope, and SDEC answers with its plaintext. -/
theorem streamRoundTrips : Obligations.StreamRoundTrips := by
  intro S key iv p hkey
  have hdrawn : ∀ e, sencDrawnResponse S key iv p = ⟨.ok, e⟩ → sdecResponse S key e = ⟨.ok, p⟩ := fun e he =>
    respond_eq_ok_iff.mpr (cfbDec_of_cfbEnc (respond_eq_ok_iff.mp he))
  have henc : cfbEnc S key iv p = .ok (blockBytes iv ++ cfbStream S .senc (subkeysOf key) iv p) :=
    cfbEnc_eq_ok_iff.mpr ⟨hkey, rfl⟩
  exact ⟨⟨_, henc, cfbDec_of_cfbEnc henc⟩, fun e he => hdrawn e (sencResponse_eq hkey S iv p ▸ he), hdrawn⟩

/-- Settles O16: masking keeps the length of a stream. -/
theorem streamLengthsAreKept : Obligations.StreamLengthsAreKept := by
  constructor
  · intro S key iv p e h
    obtain ⟨-, rfl⟩ := cfbEnc_eq_ok_iff.mp h
    rw [List.length_append, blockBytes_length, cfbStream_length]
  · intro S key e p _ h
    obtain ⟨-, -, rfl⟩ := cfbDec_eq_ok_iff.mp h
    rw [cfbStream_length, List.length_drop]

/-- Settles O17: the first bytes of an envelope are the envelope of the first bytes. -/
theorem commonPrefixesGiveCommonEnvelopes : Obligations.CommonPrefixesGiveCommonEnvelopes := by
  intro S key iv p q e f m _ _ hpq he hf
  obtain ⟨-, rfl⟩ := cfbEnc_eq_ok_iff.mp he
  obtain ⟨-, rfl⟩ := cfbEnc_eq_ok_iff.mp hf
  have htake : ∀ x : Bytes, (blockBytes iv ++ x).take (8 + m) = blockBytes iv ++ x.take m := fun x =>
    List.take_length_add_append (l₁ := blockBytes iv) m
  rw [htake, htake, ← cfbStream_take, ← cfbStream_take, hpq]

/-- Settles O18: the two blocks that plaintext block `i` comes from are bytes `8i` to `8i + 15` of the envelope. -/
theorem decryptionSynchronisesItself : Obligations.DecryptionSynchronisesItself := by
  intro S key e f p q i _ _ hwindow hp hq
  obtain ⟨-, -, rfl⟩ := cfbDec_eq_ok_iff.mp hp
  obtain ⟨-, -, rfl⟩ := cfbDec_eq_ok_iff.mp hq
  have hbefore : blockOf (e.drop (8 * i)) = blockOf (f.drop (8 * i)) := by
    have := congrArg (fun w => blockOf (w.take 8)) hwindow
    simpa [List.take_take, blockOf_take] using this
  have hown : (e.drop (8 * i + 8)).take 8 = (f.drop (8 * i + 8)).take 8 := by
    have := congrArg (List.drop 8) hwindow
    simpa [List.drop_take, List.drop_drop] using this
  rw [cfbStream_sdec_block, cfbStream_sdec_block, hbefore, hown]

/-! ### IVSEL, NEXT and MIX -/

section Steps

variable {S : SBox} {s t : State} {op : Op}

theorem memRead_of_iv {c : Cmd} {iv : Block} (h : c.iv = some (blockBytes iv)) :
    memRead c .iv 0 8 = some (blockBytes iv) := by
  rw [memRead, spaceBytes, h]
  rfl

theorem iv_eq_none_iff {c : Cmd} : c.iv = none ↔ c.ivp = false := by
  simp [Cmd.iv]

theorem ivp_of_iv {c : Cmd} {v : Bytes} (h : c.iv = some v) : c.ivp = true := by
  cases hi : c.ivp with
  | true => rfl
  | false => rw [iv_eq_none_iff.mpr hi] at h; cases h

theorem ivsel_explicit {iv : Block} (hp : s.phase = .ivsel) (ho : s.cmd.operation = some .senc)
    (hi : s.cmd.iv = some (blockBytes iv)) : seqStep S s = .next (startEncrypt iv s) := by
  simp only [seqStep_ivsel hp, ivselStep, ho, ivp_of_iv hi, if_true, memRead_of_iv hi, blockOf_blockBytes]

theorem ivsel_drawn {d : Block} {ds : List Block} (hp : s.phase = .ivsel) (ho : s.cmd.operation = some .senc)
    (hi : s.cmd.iv = none) (hd : s.draws = d :: ds) :
    seqStep S s = .next (startEncrypt d { s with draws := ds }) := by
  simp only [seqStep_ivsel hp, ivselStep, ho, iv_eq_none_iff.mp hi, Bool.false_eq_true, if_false, hd]

theorem ivsel_envelope (hp : s.phase = .ivsel) (ho : s.cmd.operation = some .sdec) (hlen : 8 ≤ s.cmd.data.length) :
    seqStep S s = .next (startDecrypt (blockOf s.cmd.data) s) := by
  simp only [seqStep_ivsel hp, ivselStep, ho, memRead_data (c := s.cmd) (off := 0) (n := 8) (by omega), List.drop_zero,
    blockOf_take]

/-- A step that takes an answer of the entropy source is IVSEL's, of a SENC without IV, and takes one (R32). -/
theorem seqStep_draws (h : seqStep S s = .next t) (hd : t.draws ≠ s.draws) :
    s.phase = .ivsel ∧ NeedsDraw s.cmd ∧ ∃ d, s.draws = d :: t.draws := by
  cases seqMove_of_seqStep h with
  | drawnIv hp ho hi hds => exact ⟨hp, ⟨ho, hi⟩, _, hds⟩
  | _ => exact absurd rfl hd

theorem next_step (hp : s.phase = .next) (ho : s.cmd.operation = some op) (hb : op.isBlock = false) :
    seqStep S s = .next { s with phase := if s.pos = (streamOf op s.cmd).length then .done else .load } := by
  simp only [seqStep_next hp, nextStep, ho, hb, Bool.false_eq_true, if_false]

/-- MIX on the bytes `inp` it reads, which mask to `o` (R146). -/
theorem mix_step {len : Nat} {inp o : Bytes} (hp : s.phase = .mix) (ho : s.cmd.operation = some op)
    (hb : op.isBlock = false) (hlen : len = min 8 ((streamOf op s.cmd).length - s.pos))
    (hread : memRead s.cmd .data (op.streamBase + s.pos) len = some inp) (hmask : o = xorBytes inp (blockBytes s.ks)) :
    seqStep S s = .next { appendResp o s with gamma := mixed op inp o, pos := s.pos + len, phase := .next } := by
  simp only [seqStep_mix hp, mixStep, ho, hb, Bool.false_eq_true, if_false, ← hlen, hread, hmask]
  rfl

end Steps

/-- Settles O23: IVSEL's effect for each source of the IV, and of the moves only a drawn IV takes an answer. -/
theorem ivselChoosesTheIv : Obligations.IvselChoosesTheIv := by
  refine ⟨fun S s iv hp ho hi => ivsel_explicit hp ho hi, fun S s d ds hp ho hi hd => ivsel_drawn hp ho hi hd,
    fun S s iv c hp ho hdata => ?_, fun S s t => seqStep_draws⟩
  rw [ivsel_envelope hp ho (by simp [hdata]), hdata, blockOf_blockBytes_append]
  rfl

/-- Settles O24: the stream is that of the command's row. -/
theorem nextWritesOnlyThePhase : Obligations.NextWritesOnlyThePhase := by
  intro S s stream hp hstream
  obtain ⟨ho, rfl⟩ | ⟨ho, rfl⟩ := hstream
  · exact next_step hp ho rfl
  · exact next_step hp ho rfl

/-- Settles O28: the keystream is cut to the length of the block, and the chaining value is padded to 8 bytes. -/
theorem mixMasksAndChains : Obligations.MixMasksAndChains := by
  intro S s base hp hop hlt len inp o c
  obtain ⟨op, ho, hb, rfl⟩ : ∃ op, s.cmd.operation = some op ∧ op.isBlock = false ∧ base = op.streamBase := by
    obtain ⟨ho, rfl⟩ | ⟨ho, rfl⟩ := hop <;> exact ⟨_, ho, rfl, rfl⟩
  have hinp : inp.length = len := by simp only [inp, len, List.length_take, List.length_drop]; omega
  have hmask : o = xorBytes inp (blockBytes s.ks) := xorBytes_take_right hinp.le
  have ho_len : o.length = len := by rw [hmask, xorBytes_length, hinp, blockBytes_length]; omega
  have hgamma : mixed op inp o = blockOf c := by simp only [c, ho, Option.some.injEq, mixed, apply_ite blockOf]
  have hc_len : c.length = len := by simp only [c, apply_ite List.length, hinp, ho_len, ite_self]
  have hstep := mix_step (S := S) hp ho hb (by rw [streamOf, List.length_drop]) (memRead_data (by omega)) hmask
  have hpad : blockBytes (blockOf c) = c ++ List.replicate (8 - len) 0 :=
    hc_len ▸ blockBytes_blockOf_short (by omega)
  exact ⟨hinp, ho_len, by omega, _, hstep, (congrArg blockBytes hgamma).trans hpad, rfl⟩

/-! ### SENC and SDEC -/

theorem valid_senc {ivp : Bool} {key iv data : Bytes} (hkey : key.length = 32) (hiv : iv.length = if ivp then 8 else 0) :
    Valid (Instr.senc ivp key iv data).toCmd .senc where
  operation := rfl
  reserved := rfl
  noStrayIv := by rintro rfl; exact hiv
  ivTaken _ := rfl
  block := nofun
  key := hkey
  iv := by rintro - rfl; exact hiv
  envelope := nofun

theorem valid_sdec {key env : Bytes} (hkey : key.length = 32) (henv : 8 ≤ env.length) :
    Valid (Instr.sdec key env).toCmd .sdec :=
  ⟨rfl, rfl, fun _ => rfl, nofun, nofun, hkey, nofun, fun _ => henv⟩

/-- Settles O43, from the run of a SENC with an explicit IV. -/
theorem sencAnswersTheEnvelope : Obligations.SencAnswersTheEnvelope := by
  intro key p iv s hp hkey
  obtain ⟨t, ht, et⟩ := present_senc_explicit (S := Config.sbox) hp
    (valid_senc (ivp := true) (iv := blockBytes iv) (data := p) hkey rfl) rfl
  refine ⟨_, t, cfbEnc_eq_ok_iff.mpr ⟨hkey, rfl⟩, by rw [exec_eq_present, ht], ?_⟩
  rw [et]
  rfl

/-- Settles O44, from the run of a SENC whose draw is answered. -/
theorem sencWithoutIvUsesOneDraw : Obligations.SencWithoutIvUsesOneDraw := by
  intro key p d ds s hp hkey hd
  obtain ⟨t, ht, et⟩ := present_senc_drawn (S := Config.sbox) hp
    (valid_senc (ivp := false) (iv := []) (data := p) hkey rfl) rfl hd
  refine ⟨_, t, cfbEnc_eq_ok_iff.mpr ⟨hkey, rfl⟩, by rw [exec_eq_present, ht], ?_⟩
  rw [et]
  rfl

/-- Settles O46, from the run of an SDEC. -/
theorem sdecAnswersThePlaintext : Obligations.SdecAnswersThePlaintext := by
  intro key env s hp hkey henv
  obtain ⟨t, ht, et⟩ := present_sdec (S := Config.sbox) hp (valid_sdec hkey henv)
  refine ⟨_, t, cfbDec_eq_ok_iff.mpr ⟨hkey, henv, rfl⟩, by rw [exec_eq_present, ht], ?_⟩
  rw [et]
  rfl

end Sys2Proof.Machine

/-! ## Faults, and waiting for a draw

CHECK finds the first fault of R162's order, and raising it writes nothing but `PHASE` (R170), so the command after a
faulting one finds the engine idle, its registers and draws as they were but for `CMD` (R171). A SENC whose draw is not
answered stays in IVSEL (R177). -/

namespace Sys2Proof.Machine

/-! ### Faults -/

section Faults

variable {S : SBox} {s : State} {c : Cmd} {f : CmdFault} {i : Instr}

theorem checkCmd_invalidKeyLength (hframe : ¬ BreaksFrame c) (hkey : c.key.length ≠ 32) :
    checkCmd c = some .invalidKeyLength := by
  obtain ⟨hfault, -, -⟩ := checkCmd_framed hframe
  exact hfault hkey

theorem checkCmd_invalidIVLength (hframe : ¬ BreaksFrame c) (hkey : c.key.length = 32) (hiv : BreaksIv c) :
    checkCmd c = some .invalidIVLength := by
  obtain ⟨-, hfault, -⟩ := checkCmd_framed hframe
  exact hfault hkey hiv

theorem checkCmd_finds_none (hframe : ¬ BreaksFrame c) (hkey : c.key.length = 32) (hiv : ¬ BreaksIv c) :
    checkCmd c = none := by
  obtain ⟨-, -, hnone⟩ := checkCmd_framed hframe
  exact hnone hkey hiv

/-- What CHECK writes for a command it lets pass (R162). -/
theorem check_passes_of_no_fault (hp : s.phase = .check) (hc : checkCmd s.cmd = none) :
    seqStep S s = .next { s with dir := dirOf s.cmd.operation, resp := [], phase := .kexp } := by
  rw [seqStep_check hp, checkStep, hc]

/-- The empty payload of a fault leaves of its frame the code and seven zero bytes (R79, R80). -/
theorem encode_fault (f : CmdFault) : Response.encode ⟨.fault f, []⟩ = some [f.code, 0, 0, 0, 0, 0, 0, 0] := by
  cases f <;> decide

theorem raiseFault_accept (hp : s.phase = .idle) :
    raiseFault f (accept c s) = { s with cmd := c, tx := s.tx ++ [⟨.fault f, []⟩] } := by
  simp [raiseFault, deliver, accept, hp]

/-- An instruction that CHECK refuses latches its command and delivers the fault (R169, R170). -/
theorem exec_refused (hp : s.phase = .idle) (hc : checkCmd i.toCmd = some f) :
    exec i s = .next { s with cmd := i.toCmd, tx := s.tx ++ [⟨.fault f, []⟩] } := by
  rw [exec_eq_present, present_refused hp hc, raiseFault_accept hp]

end Faults

/-- Settles O20: the first fault of R162's order is the one that `checkCmd` finds. -/
theorem checkReportsTheFirstFault : Obligations.CheckReportsTheFirstFault := by
  intro S s hp
  exact ⟨fun hframe => check_refuses hp (checkCmd_badFrame.mpr hframe),
    fun hframe hkey => check_refuses hp (checkCmd_invalidKeyLength hframe hkey),
    fun hframe hkey hiv => check_refuses hp (checkCmd_invalidIVLength hframe hkey hiv),
    fun hframe hkey hiv => check_passes_of_no_fault hp (checkCmd_finds_none hframe hkey hiv)⟩

/-- Settles O21: raising a fault is `raiseFault`. -/
theorem raisingAFaultWritesOnlyThePhase : Obligations.RaisingAFaultWritesOnlyThePhase :=
  fun _ _ f hp hc => ⟨check_refuses hp hc, encode_fault f⟩

/-- Settles O47: of the faults in R162's order, `exec` delivers the first. -/
theorem faultingCommandsHaveNoOtherEffect : Obligations.FaultingCommandsHaveNoOtherEffect := by
  intro i s hp after
  exact ⟨fun hframe => exec_refused hp (checkCmd_badFrame.mpr hframe),
    fun hframe hkey => exec_refused hp (checkCmd_invalidKeyLength hframe hkey),
    fun hframe hkey hiv => exec_refused hp (checkCmd_invalidIVLength hframe hkey hiv)⟩

/-- Settles O49: after the faulting command the engine is idle with the same draws, and nothing else tells what a command
is answered. -/
theorem faultsLeaveNothingBehind : Obligations.FaultsLeaveNothingBehind := by
  rintro i j s t hp ⟨f, hc⟩ ht
  obtain rfl := Host.Outcome.next.inj ((exec_refused hp hc).symm.trans ht)
  obtain ⟨new, phase, left, hobs⟩ := present_observable Config.sbox j.toCmd s.draws
  obtain ⟨u, hu, hutx, huphase, hudraws⟩ := hobs s hp rfl
  obtain ⟨v, hv, hvtx, hvphase, hvdraws⟩ :=
    hobs { s with cmd := i.toCmd, tx := s.tx ++ [⟨.fault f, []⟩] } hp rfl
  exact ⟨u, v, new, by rw [exec_eq_present, hu], by rw [exec_eq_present, hv], hutx, hvtx,
    huphase.trans hvphase.symm, hudraws.trans hvdraws.symm⟩

/-! ### Waiting for a draw -/

section Waiting

variable {S : SBox} {s : State}

/-- While the entropy source is silent, IVSEL's step changes nothing (log entry 10). -/
theorem AwaitsDraw.seqStep_eq (h : AwaitsDraw s) : seqStep S s = .next s := by
  obtain ⟨hp, ho, hi, hd⟩ := h
  simp only [seqStep_ivsel hp, ivselStep, ho, hi, Bool.false_eq_true, if_false, hd]

theorem AwaitsDraw.busy (h : AwaitsDraw s) : s.phase ≠ .idle := by
  obtain ⟨hp, -⟩ := h
  simp [hp]

theorem seqRun_stuck (h : seqStep S s = .next s) (n : Nat) : seqRun S n s = .next s := by
  induction n with
  | zero => rfl
  | succ n ih => rw [seqRun_succ_of_step h, ih]

/-- The answer the engine waited for becomes the IV, and is used up (R144). -/
theorem AwaitsDraw.answered (h : AwaitsDraw s) (d : Block) :
    seqStep S (entropyAnswer d s) = .next (startEncrypt d s) := by
  obtain ⟨hp, ho, hi, hd⟩ := h
  have hanswer : (entropyAnswer d s).draws = d :: [] := by rw [entropyAnswer_draws, hd, List.nil_append]
  rw [ivsel_drawn (s := entropyAnswer d s) hp ho (iv_eq_none_iff.mpr hi) hanswer, ← hd]
  rfl

/-- A valid SENC without IV, presented while the entropy source is silent, waits for its draw with nothing delivered
(R177). -/
theorem present_senc_awaits {c : Cmd} (hp : s.phase = .idle) (v : Valid c .senc) (hi : c.ivp = false)
    (hd : s.draws = []) :
    ∃ t, present S c s = .next t ∧ AwaitsDraw t ∧ t.tx = s.tx ∧ t.rx = s.rx ∧ t.resetIn = s.resetIn :=
  ⟨_, present_senc_silent hp v hi hd, ⟨rfl, v.operation, hi, hd⟩, rfl, rfl, rfl⟩

end Waiting

/-- Settles O36: a step that changes nothing may be taken any number of times. -/
theorem silentEntropySourceHoldsTheCommand : Obligations.SilentEntropySourceHoldsTheCommand :=
  fun _ _ h => ⟨seqRun_stuck h.seqStep_eq, h.answered⟩

/-- Settles O45: the waiting engine is busy, so the machine's step is its sequencer's. -/
theorem sencWithoutDrawWaits : Obligations.SencWithoutDrawWaits := by
  intro key p s hp hr hkey hd
  obtain ⟨t, ht, hwait, htx, hrx, hreset⟩ := present_senc_awaits (S := Config.sbox) hp
    (valid_senc (ivp := false) (iv := []) (data := p) hkey rfl) rfl hd
  exact ⟨t, by rw [exec_eq_present, ht], hwait, htx, hrx,
    (step_busy (hreset.trans hr) hwait.busy).trans hwait.seqStep_eq⟩

end Sys2Proof.Machine

/-! ## Reset

Reset is acted on before the phase is looked at, so it ends a command in any phase, without a response (R191), and leaves
an idle engine (R190). -/

namespace Sys2Proof.Machine

/-- The machine's step with reset asserted, beside `engineStep_reset`: neither looks at the phase (R191). -/
theorem step_reset {s : State} (h : s.resetIn = true) : step s = .next (applyReset s) := by
  simp [step, h]

/-- Settles O37: an engine after reset is idle, and an idle one has no command in progress to say anything of. -/
theorem resetMeetsTheInvariant : Obligations.ResetMeetsTheInvariant :=
  fun _ => seqInv_of_idle rfl

/-- Settles O56: both machines take the state of `applyReset`, whose fields but the two interfaces are those of
`State.reset`. -/
theorem resetAbandonsTheCommand : Obligations.ResetAbandonsTheCommand := by
  refine ⟨⟨rfl, rfl⟩, fun S s => ⟨fun hr => ?_, engineStep_run⟩⟩
  exact ⟨applyReset s, engineStep_reset hr, step_reset hr, applyReset_phase s, applyReset_tx s, applyReset_resetIn s,
    applyReset_rx s, applyReset_draws s⟩

end Sys2Proof.Machine
